-- ==== Sys2Proof/Word.lean ====
section
/-! DEFINITION. The two data widths of the hardware: a byte is 8 bits, a word is 16 bits (spec/00_scope.md R8).
Every register value, literal and address is an unsigned word. -/

namespace Sys2Proof

/-- Eight bits: one cell of Memory, an opcode byte, a register code (R8). -/
abbrev Byte := BitVec 8

/-- Sixteen bits: a register, a literal, an address (R8, `XLEN` of R7). Addition and subtraction of words are modulo 65536. -/
abbrev Word := BitVec 16

end Sys2Proof
end

