-- ==== Sys2Proof/Machine/Flags.lean ====
section
/-! DEFINITION. Stage X of a step: the adder of ADD and the comparator of JNE. The hardware has no flags: no instruction reads or writes
one (spec/10_state.md R30), so these two are all there is. -/

namespace Sys2Proof.Machine

/-- The sum of ADD, modulo 65536, with no overflow, carry, zero or sign flag (42_add.md R140, R141). -/
def addWords (a b : Word) : Word := a + b

/-- The comparison of JNE: inequality of all sixteen bits, not an ordering (R142). -/
def wordsDiffer (a b : Word) : Bool := decide (a ≠ b)

end Sys2Proof.Machine
end

