-- ==== Sys2Proof/Config.lean ====
section
/-! DEFINITION. The implementation parameters of spec/00_scope.md R7 that are OPEN: `MEM_SIZE`, `SP_INIT_OFFSET` and the opcode map
`OPC`, with the spec's defaults. They are fixed for the life of a machine (10_state.md R34 (d)). Which values are admitted is
said in WellFormed.lean.
DESIGN CHOICE (notes/assumptions/1.md): State carries a `Config`, so that every statement about the machine is one about every
choice of the parameters. -/

namespace Sys2Proof

/-- `OPC`: the byte value of each of the thirteen opcodes, in the order of 30_encoding.md R88. -/
structure Opc where
  movLitReg : Byte
  movLitMem : Byte
  movRegReg : Byte
  movRegMem : Byte
  movMemReg : Byte
  addRegReg : Byte
  jneLitMem : Byte
  pshLit    : Byte
  pshReg    : Byte
  popReg    : Byte
  callLit   : Byte
  callReg   : Byte
  ret       : Byte
  deriving DecidableEq, Repr

/-- The thirteen values as a list, in the order of R88. -/
def Opc.values (c : Opc) : List Byte :=
  [c.movLitReg, c.movLitMem, c.movRegReg, c.movRegMem, c.movMemReg, c.addRegReg, c.jneLitMem,
   c.pshLit, c.pshReg, c.popReg, c.callLit, c.callReg, c.ret]

/-- The spec's default opcode values 0x10 to 0x1C (R88, 92_eei_decisions.md D4; notes/assumptions/2.md). -/
def Opc.default : Opc where
  movLitReg := 0x10
  movLitMem := 0x11
  movRegReg := 0x12
  movRegMem := 0x13
  movMemReg := 0x14
  addRegReg := 0x15
  jneLitMem := 0x16
  pshLit    := 0x17
  pshReg    := 0x18
  popReg    := 0x19
  callLit   := 0x1A
  callReg   := 0x1B
  ret       := 0x1C

/-- The parameters of one machine (R7). -/
structure Config where
  /-- `MEM_SIZE`: the number of bytes of Memory (92_eei_decisions.md D2). -/
  memSize : Nat
  /-- `SP_INIT_OFFSET`: how far below the end of Memory `sp` and `fp` start (D3). -/
  spInitOffset : Nat
  /-- `OPC`: the opcode map (D4). -/
  opc : Opc
  deriving DecidableEq, Repr

/-- The defaults of R7: 65536 bytes of Memory, offset 2, opcodes 0x10 to 0x1C. -/
def Config.default : Config where
  memSize := 65536
  spInitOffset := 2
  opc := Opc.default

end Sys2Proof
end

