-- ==== Sys2Proof/Syntax.lean ====
section
/-! DEFINITION. The instructions of KVM16: the register set (spec/10_state.md R20), the closed set of thirteen opcodes
(30_encoding.md R88), their formats (R82), and `Instr`, one constructor per row of opcode_table.json.
DESIGN CHOICE (notes/assumptions/19.md): a register operand is held as the register it names, not as its code byte. -/

namespace Sys2Proof

/-- The twelve registers in the fixed order of R20. -/
inductive Reg where
  | ip | acc | r1 | r2 | r3 | r4 | r5 | r6 | r7 | r8 | sp | fp
  deriving DecidableEq, Repr

/-- The position of a register in the ordered set (R20); it is also its canonical code. -/
def Reg.position : Reg → Nat
  | .ip => 0
  | .acc => 1
  | .r1 => 2
  | .r2 => 3
  | .r3 => 4
  | .r4 => 5
  | .r5 => 6
  | .r6 => 7
  | .r7 => 8
  | .r8 => 9
  | .sp => 10
  | .fp => 11

/-- The closed set of opcodes, by the names of R88. -/
inductive Op where
  | movLitReg | movLitMem | movRegReg | movRegMem | movMemReg
  | addRegReg | jneLitMem
  | pshLit | pshReg | popReg
  | callLit | callReg | ret
  deriving DecidableEq, Repr

/-- Every opcode once, in the order of R88. -/
def Op.all : List Op :=
  [.movLitReg, .movLitMem, .movRegReg, .movRegMem, .movMemReg, .addRegReg, .jneLitMem,
   .pshLit, .pshReg, .popReg, .callLit, .callReg, .ret]

/-- The three kinds of operand of R81. -/
inductive OperandKind where
  /-- A 16-bit literal, two bytes. -/
  | lit
  /-- A 16-bit absolute Memory address, two bytes. -/
  | addr
  /-- A register code, one byte. -/
  | reg
  deriving DecidableEq, Repr

/-- The number of instruction bytes an operand takes (R81). -/
def OperandKind.bytes : OperandKind → Nat
  | .lit => 2
  | .addr => 2
  | .reg => 1

/-- The operand kinds that follow an opcode, in the order of R82 and R87. -/
def Op.operands : Op → List OperandKind
  | .movLitReg => [.lit, .reg]
  | .movLitMem => [.lit, .addr]
  | .movRegReg => [.reg, .reg]
  | .movRegMem => [.reg, .addr]
  | .movMemReg => [.addr, .reg]
  | .addRegReg => [.reg, .reg]
  | .jneLitMem => [.lit, .addr]
  | .pshLit => [.lit]
  | .pshReg => [.reg]
  | .popReg => [.reg]
  | .callLit => [.lit]
  | .callReg => [.reg]
  | .ret => []

/-- The length in bytes of an instruction with this opcode: one opcode byte and its operands (R80, R82). -/
def Op.length (o : Op) : Nat := 1 + (o.operands.map OperandKind.bytes).sum

/-- An instruction with its operands, one constructor per row of opcode_table.json. Operands stand in encoding order (R87). -/
inductive Instr where
  /-- `mov $L, D` (41_mov.md R130). -/
  | movLitReg (lit : Word) (d : Reg)
  /-- `mov $L, #M` (R131). -/
  | movLitMem (lit : Word) (addr : Word)
  /-- `mov S, D` (R132). -/
  | movRegReg (src : Reg) (d : Reg)
  /-- `mov S, #M` (R133). -/
  | movRegMem (src : Reg) (addr : Word)
  /-- `mov #M, D` (R134). -/
  | movMemReg (addr : Word) (d : Reg)
  /-- `add S, D`: both operands are sources (42_add.md R140). -/
  | addRegReg (a : Reg) (b : Reg)
  /-- `jne $L, #M` (43_jne.md R150). -/
  | jneLitMem (lit : Word) (addr : Word)
  /-- `psh $L` (44_stack.md R164). -/
  | pshLit (lit : Word)
  /-- `psh R` (R165). -/
  | pshReg (r : Reg)
  /-- `pop R` (R166). -/
  | popReg (r : Reg)
  /-- `call $L` (45_call_ret.md R185). -/
  | callLit (addr : Word)
  /-- `call R` (R186). -/
  | callReg (r : Reg)
  /-- `ret` (R190). -/
  | ret
  deriving DecidableEq, Repr

/-- The opcode of an instruction. -/
def Instr.op : Instr → Op
  | .movLitReg _ _ => .movLitReg
  | .movLitMem _ _ => .movLitMem
  | .movRegReg _ _ => .movRegReg
  | .movRegMem _ _ => .movRegMem
  | .movMemReg _ _ => .movMemReg
  | .addRegReg _ _ => .addRegReg
  | .jneLitMem _ _ => .jneLitMem
  | .pshLit _ => .pshLit
  | .pshReg _ => .pshReg
  | .popReg _ => .popReg
  | .callLit _ => .callLit
  | .callReg _ => .callReg
  | .ret => .ret

/-- The length of an instruction in bytes; the opcode alone fixes it (R80, R94). -/
def Instr.length (i : Instr) : Nat := i.op.length

end Sys2Proof
end

