-- ==== Sys2Proof/WellFormed.lean ====
section
/-! DEFINITION. What is well formed. The fields of `Instr` carry their own bounds (16-bit words and the twelve registers), and the
spec refuses no operand value (30_encoding.md R92, R93), so every term of type `Instr` is an instruction of the hardware and needs no
check. What can be ill formed is a choice of parameters (00_scope.md R7, 30_encoding.md R89, R90), a program image (20_memory.md R68)
and a register code written by an encoder (70_reset_and_hazards.md R259). -/

namespace Sys2Proof

/-- The thirteen opcode values are distinct (R89). -/
abbrev Opc.Distinct (c : Opc) : Prop := c.values.Nodup

/-- 0x00 is not an opcode (R90). -/
abbrev Opc.NonZero (c : Opc) : Prop := (0 : Byte) ∉ c.values

/-- An admitted opcode map (R89, R90). -/
abbrev Opc.wf (c : Opc) : Prop := c.Distinct ∧ c.NonZero

/-- `SP_INIT_OFFSET` is at least 2 (R7, 92_eei_decisions.md D3). -/
abbrev Config.OffsetAtLeastTwo (c : Config) : Prop := 2 ≤ c.spInitOffset

/-- `SP_INIT_OFFSET <= MEM_SIZE` (R7, D2). -/
abbrev Config.OffsetInMemory (c : Config) : Prop := c.spInitOffset ≤ c.memSize

/-- `MEM_SIZE <= 65536`: every byte of Memory has a 16-bit address (R7, D2). -/
abbrev Config.MemoryAddressable (c : Config) : Prop := c.memSize ≤ 65536

/-- An admitted choice of the parameters (R7). -/
abbrev Config.wf (c : Config) : Prop :=
  c.OffsetAtLeastTwo ∧ c.OffsetInMemory ∧ c.MemoryAddressable ∧ c.opc.wf

/-- A program image can be loaded: it has at most `MEM_SIZE` bytes (R68, R242 (d)). -/
abbrev Config.Loadable (c : Config) (image : List Byte) : Prop := image.length ≤ c.memSize

/-- A register code an encoder should write: 0x00 to 0x0B (R86, R259). The hardware accepts every byte (R92). -/
abbrev canonicalCode (b : Byte) : Prop := b.toNat < 12

end Sys2Proof
end

