-- ==== Sys2Proof/Decode.lean ====
section
/-! DEFINITION. The decoder and, after it, the encoder (spec/30_encoding.md, 40_fetch_decode.md). The decoder is written once over the two
fetch primitives, so that the machine (which fetches through `ip`) and the decoder of plain bytes run the same text. It is total: every
opcode byte outside the closed set is answered by name, never by a neighbour's meaning (R91, R94, R95). -/

namespace Sys2Proof

/-! ### Byte order and register codes -/

/-- A word from its two bytes, the byte at the lower address first: big-endian (20_memory.md R53; 30_encoding.md R84). -/
def wordOfBytes (hi lo : Byte) : Word := hi ++ lo

/-- `v[15:8]`, the byte that lies at the lower address (R53). -/
def highByte (v : Word) : Byte := v.extractLsb' 8 8

/-- `v[7:0]`, the byte that lies at the higher address (R53). -/
def lowByte (v : Word) : Byte := v.extractLsb' 0 8

/-- The register at a position of the ordered set of R20; used for positions 0 to 11 only. -/
def Reg.ofPosition : Nat → Reg
  | 0 => .ip
  | 1 => .acc
  | 2 => .r1
  | 3 => .r2
  | 4 => .r3
  | 5 => .r4
  | 6 => .r5
  | 7 => .r6
  | 8 => .r7
  | 9 => .r8
  | 10 => .sp
  | _ => .fp

/-- The register a code byte names: the byte modulo the register count (30_encoding.md R86, R92; 42_add.md R144). -/
def Reg.ofCode (b : Byte) : Reg := Reg.ofPosition (b.toNat % 12)

/-- The canonical code of a register (10_state.md R20). -/
def Reg.code (r : Reg) : Byte := BitVec.ofNat 8 r.position

/-! ### The opcode map -/

/-- `OPC(name)`, the byte value of an opcode (R88). -/
def Opc.value (c : Opc) : Op → Byte
  | .movLitReg => c.movLitReg
  | .movLitMem => c.movLitMem
  | .movRegReg => c.movRegReg
  | .movRegMem => c.movRegMem
  | .movMemReg => c.movMemReg
  | .addRegReg => c.addRegReg
  | .jneLitMem => c.jneLitMem
  | .pshLit => c.pshLit
  | .pshReg => c.pshReg
  | .popReg => c.popReg
  | .callLit => c.callLit
  | .callReg => c.callReg
  | .ret => c.ret

/-- The opcode a byte selects, if any (40_fetch_decode.md R114). Under a map that is not well formed the first in the order of R88 is
taken (notes/assumptions/25.md). -/
def Opc.lookup (c : Opc) (b : Byte) : Option Op := Op.all.find? (fun o => decide (c.value o = b))

/-! ### The decoder, over any source of bytes -/

/-- What a decoder found: an instruction, or an opcode byte outside the closed set, each with what is left of the source. -/
inductive Decoded (σ : Type) where
  | instr (i : Instr) (rest : σ)
  | illegal (b : Byte) (rest : σ)
  deriving DecidableEq, Repr

section Source

variable {σ ε : Type} (fetch1 : σ → Except ε (Byte × σ)) (fetch2 : σ → Except ε (Word × σ))

/-- `fetchRegisterIndex()` (40_fetch_decode.md R112). -/
def fetchReg (t : σ) : Except ε (Reg × σ) := do
  let (b, t) ← fetch1 t
  return (Reg.ofCode b, t)

/-- Stage D of R118: the operands of an opcode, in the order of its format (30_encoding.md R82, R87). -/
def decodeOperands (o : Op) (t : σ) : Except ε (Instr × σ) :=
  match o with
  | .movLitReg => do
    let (lit, t) ← fetch2 t
    let (d, t) ← fetchReg fetch1 t
    return (.movLitReg lit d, t)
  | .movLitMem => do
    let (lit, t) ← fetch2 t
    let (addr, t) ← fetch2 t
    return (.movLitMem lit addr, t)
  | .movRegReg => do
    let (src, t) ← fetchReg fetch1 t
    let (d, t) ← fetchReg fetch1 t
    return (.movRegReg src d, t)
  | .movRegMem => do
    let (src, t) ← fetchReg fetch1 t
    let (addr, t) ← fetch2 t
    return (.movRegMem src addr, t)
  | .movMemReg => do
    let (addr, t) ← fetch2 t
    let (d, t) ← fetchReg fetch1 t
    return (.movMemReg addr d, t)
  | .addRegReg => do
    let (a, t) ← fetchReg fetch1 t
    let (b, t) ← fetchReg fetch1 t
    return (.addRegReg a b, t)
  | .jneLitMem => do
    let (lit, t) ← fetch2 t
    let (addr, t) ← fetch2 t
    return (.jneLitMem lit addr, t)
  | .pshLit => do
    let (lit, t) ← fetch2 t
    return (.pshLit lit, t)
  | .pshReg => do
    let (r, t) ← fetchReg fetch1 t
    return (.pshReg r, t)
  | .popReg => do
    let (r, t) ← fetchReg fetch1 t
    return (.popReg r, t)
  | .callLit => do
    let (addr, t) ← fetch2 t
    return (.callLit addr, t)
  | .callReg => do
    let (r, t) ← fetchReg fetch1 t
    return (.callReg r, t)
  | .ret => .ok (.ret, t)

/-- Fetch the opcode byte, then the operands it asks for; for a byte outside the closed set nothing more is fetched
(R91, R94, R113, R114). -/
def decodeFrom (c : Opc) (t : σ) : Except ε (Decoded σ) := do
  let (b, t) ← fetch1 t
  match c.lookup b with
  | none => return .illegal b t
  | some o => do
    let (i, t) ← decodeOperands fetch1 fetch2 o t
    return .instr i t

end Source

/-! ### The decoder of plain bytes -/

/-- Why a list of bytes is no instruction. -/
inductive DecodeError where
  /-- The list ends before the instruction does. -/
  | truncated
  /-- The opcode byte is outside the closed set (R91). -/
  | illegalOpcode (b : Byte)
  deriving DecidableEq, Repr

/-- One byte of a list. -/
def takeByte : List Byte → Except DecodeError (Byte × List Byte)
  | b :: bs => .ok (b, bs)
  | [] => .error .truncated

/-- One word of a list, high byte first (R84). -/
def takeWord : List Byte → Except DecodeError (Word × List Byte)
  | hi :: lo :: bs => .ok (wordOfBytes hi lo, bs)
  | _ => .error .truncated

/-- The instruction at the head of a list of bytes and the bytes after it, or why there is none. -/
def decode (c : Opc) (bs : List Byte) : Except DecodeError (Instr × List Byte) :=
  match decodeFrom takeByte takeWord c bs with
  | .ok (.instr i rest) => .ok (i, rest)
  | .ok (.illegal b _) => .error (.illegalOpcode b)
  | .error e => .error e

/-- The `n` bytes of a number whose bits are counted from the least significant bit of the first byte. -/
def bytesOfNat : Nat → Nat → List Byte
  | 0, _ => []
  | n + 1, w => BitVec.ofNat 8 w :: bytesOfNat n (w / 256)

/-- The longest instruction (R80). -/
def maxLength : Nat := 5

/-- The five bytes that a table word of `nbits` bits stands for; the bits above `nbits` are 0. -/
def tableBytes (nbits w : Nat) : List Byte := bytesOfNat maxLength (w % 2 ^ nbits)

/-- The instruction the decoder reads, under the spec's default opcode values (R88), from a word numbered as opcode_table.json
numbers it. -/
def decodeTableWord (nbits w : Nat) : Option Instr :=
  match decode Opc.default (tableBytes nbits w) with
  | .ok (i, _) => some i
  | .error _ => none

/-! ### The encoder -/

/-- The two bytes of a literal or an address, high byte first (R84, R85). -/
def wordBytes (v : Word) : List Byte := [highByte v, lowByte v]

/-- The operand bytes of an instruction in the order of its format (R82, R87). -/
def operandBytes : Instr → List Byte
  | .movLitReg lit d => wordBytes lit ++ [d.code]
  | .movLitMem lit addr => wordBytes lit ++ wordBytes addr
  | .movRegReg src d => [src.code, d.code]
  | .movRegMem src addr => src.code :: wordBytes addr
  | .movMemReg addr d => wordBytes addr ++ [d.code]
  | .addRegReg a b => [a.code, b.code]
  | .jneLitMem lit addr => wordBytes lit ++ wordBytes addr
  | .pshLit lit => wordBytes lit
  | .pshReg r => [r.code]
  | .popReg r => [r.code]
  | .callLit addr => wordBytes addr
  | .callReg r => [r.code]
  | .ret => []

/-- The bytes of an instruction: its opcode byte and its operands (30_encoding.md R80, R102), registers by their canonical codes. -/
def encode (c : Opc) (i : Instr) : List Byte := c.value i.op :: operandBytes i

end Sys2Proof
end

