-- ==== Sys2Proof/Machine/State.lean ====
section
/-! DEFINITION. The state of the machine: the register file, the hidden frame-size counter and Memory (spec/10_state.md R36), with the
parameters of the machine and the status the last step answered beside them; the ways a step can stop; the state after reset. -/

namespace Sys2Proof.Machine

/-- What a memory access is for (60_exceptions.md R212). -/
inductive AccessKind where
  /-- An instruction byte or operand word read through `ip`. -/
  | fetch
  /-- A data word read. -/
  | read
  /-- A data word write. -/
  | write
  deriving DecidableEq, Repr

/-- The faults of the model (R212). -/
inductive Fault where
  /-- `MemOutOfRange(kind, addr, n)`: an access of `n` bytes (1 or 2) at `addr` has a byte outside `[0, MEM_SIZE)`. Raised by the fetch
  of every instruction (`fetch`), by MOV_MEM_REG, POP_REG and RET (`read`), and by MOV_LIT_MEM, MOV_REG_MEM, PSH_LIT, PSH_REG, CALL_LIT
  and CALL_REG (`write`). Safe: the source calls the access undefined, and the model stops (20_memory.md R55; notes/assumptions/7.md). -/
  | memOutOfRange (kind : AccessKind) (addr : Word) (n : Nat)
  deriving DecidableEq, Repr

/-- Why a step has no meaning. No step of this model is refused. -/
inductive Refusal where
  /-- The instruction has no meaning yet. Raised by no arm: all thirteen instructions are modelled. Safe. -/
  | notModelled (mnemonic : String)
  deriving DecidableEq, Repr

/-- The status a completed step answers on the control port (00_scope.md R6 (c), R12). -/
inductive StepStatus where
  /-- `continue`: the instruction completed. -/
  | continues
  /-- `halt`: the opcode byte was outside the closed set. -/
  | halts
  deriving DecidableEq, Repr

/-- The register file: twelve words in dedicated storage outside Memory (10_state.md R20, R22). -/
structure Regs where
  ip  : Word
  acc : Word
  r1  : Word
  r2  : Word
  r3  : Word
  r4  : Word
  r5  : Word
  r6  : Word
  r7  : Word
  r8  : Word
  sp  : Word
  fp  : Word
  deriving DecidableEq, Repr

/-- Memory: the bytes that differ from what an unlisted address reads as, by rising address (Machine/Memory.lean). -/
abbrev Memory := List Host.Cell

/-- The state of the machine (R36). -/
structure State where
  /-- The parameters of this machine; no step writes them (R34 (d); DESIGN CHOICE, notes/assumptions/1.md). -/
  cfg : Config
  /-- The register file `x` (R20). -/
  regs : Regs
  /-- The hidden frame-size counter (R29). -/
  fsz : Word
  /-- Memory (R33). -/
  mem : Memory
  /-- The status the last step answered, none before the first; no step reads it (DESIGN CHOICE, notes/assumptions/3.md). -/
  lastStatus : Option StepStatus
  deriving DecidableEq, Repr

/-- The state after reset of a machine with the given parameters (R40 to R45). The values of `acc`, `r1` to `r8`, `fsz` and Memory are
the spec's own decision D12 (notes/assumptions/5.md). -/
def State.resetWith (cfg : Config) : State where
  cfg := cfg
  regs :=
    { ip := 0
      acc := 0
      r1 := 0
      r2 := 0
      r3 := 0
      r4 := 0
      r5 := 0
      r6 := 0
      r7 := 0
      r8 := 0
      sp := BitVec.ofNat 16 (cfg.memSize - cfg.spInitOffset)
      fp := BitVec.ofNat 16 (cfg.memSize - cfg.spInitOffset) }
  fsz := 0
  mem := []
  lastStatus := none

/-- The state after reset with the default parameters of 00_scope.md R7. -/
def State.reset : State := State.resetWith Config.default

end Sys2Proof.Machine
end

