-- ==== Sys2Proof/Machine/Memory.lean ====
section
/-! DEFINITION. Memory as a list of (address, byte) pairs: what an unlisted address reads as, one byte read, one byte write, the word
write built from it, and the canonical form. Range checks are not here; they stand in Machine/Ops.lean. -/

namespace Sys2Proof.Machine

/-- What an address that is not listed holds: 0x00, the contents after reset (spec/10_state.md R44; notes/assumptions/9.md). -/
def Memory.blank : Byte := 0

/-- `Mem[a]`. -/
def Memory.read : Memory → Nat → Byte
  | [], _ => Memory.blank
  | (k, b) :: m, a => if a = k then b else Memory.read m a

/-- Drop every entry of an address; on a canonical memory there is at most one. -/
def Memory.clear (m : Memory) (a : Nat) : Memory := m.filter (fun c => decide (c.1 ≠ a))

/-- `Mem[a] <- v`, keeping the canonical form: an entry equal to the blank byte is not kept. -/
def Memory.write : Memory → Nat → Byte → Memory
  | [], a, v => if v = Memory.blank then [] else [(a, v)]
  | (k, b) :: m, a, v =>
    if k < a then (k, b) :: Memory.write m a v
    else if v = Memory.blank then Memory.clear ((k, b) :: m) a
    else if a = k then (a, v) :: m
    else (a, v) :: (k, b) :: m

/-- The word write of 20_memory.md R54: the high byte at the lower address. -/
def Memory.writeWord (m : Memory) (a : Nat) (v : Word) : Memory :=
  Memory.write (Memory.write m a (highByte v)) (a + 1) (lowByte v)

/-- `Mem16[a]`: the word at `a`, the high byte at the lower address (R53). -/
def Memory.readWord (m : Memory) (a : Nat) : Word := wordOfBytes (Memory.read m a) (Memory.read m (a + 1))

/-- Bytes written at sequential addresses, as the loader does (R68). -/
def Memory.writeBytes : Memory → Nat → List Byte → Memory
  | m, _, [] => m
  | m, a, b :: bs => Memory.writeBytes (Memory.write m a b) (a + 1) bs

/-- The canonical form: addresses strictly rising, every address inside Memory, no entry equal to the blank byte. -/
abbrev Memory.wf (size : Nat) (m : Memory) : Prop :=
  m.Pairwise (fun c d => c.1 < d.1) ∧ ∀ c ∈ m, c.1 < size ∧ c.2 ≠ Memory.blank

end Sys2Proof.Machine
end

