-- ==== Sys2Proof/Machine/Ops.lean ====
section
/-! DEFINITION. The named operations over registers and memory: register access, the range-checked memory primitives (spec/20_memory.md
R51 to R55), the stack primitives (44_stack.md R160, R161), and how an instruction and a halt end a step. An operation that can fault
answers `Except Fault`; a fault carries no state (60_exceptions.md R213).
The hardware takes no exception and returns from none (R216, R218, R219), so there is no such operation; the one event beside the fault
is the halt, `State.halt`. -/

namespace Sys2Proof.Machine

/-! ### Registers -/

/-- `x[r]` (spec/00_scope.md R9). No register is hard-wired (10_state.md R21). -/
def State.reg (s : State) : Reg → Word
  | .ip => s.regs.ip
  | .acc => s.regs.acc
  | .r1 => s.regs.r1
  | .r2 => s.regs.r2
  | .r3 => s.regs.r3
  | .r4 => s.regs.r4
  | .r5 => s.regs.r5
  | .r6 => s.regs.r6
  | .r7 => s.regs.r7
  | .r8 => s.regs.r8
  | .sp => s.regs.sp
  | .fp => s.regs.fp

/-- The register file with one register replaced. -/
def Regs.set (x : Regs) (r : Reg) (v : Word) : Regs :=
  match r with
  | .ip => { x with ip := v }
  | .acc => { x with acc := v }
  | .r1 => { x with r1 := v }
  | .r2 => { x with r2 := v }
  | .r3 => { x with r3 := v }
  | .r4 => { x with r4 := v }
  | .r5 => { x with r5 := v }
  | .r6 => { x with r6 := v }
  | .r7 => { x with r7 := v }
  | .r8 => { x with r8 := v }
  | .sp => { x with sp := v }
  | .fp => { x with fp := v }

/-- `x[r] <- v` (R9). -/
def State.setReg (s : State) (r : Reg) (v : Word) : State := { s with regs := s.regs.set r v }

/-- `fsz <- v`. -/
def State.setFsz (s : State) (v : Word) : State := { s with fsz := v }

/-- Memory replaced. -/
def State.setMem (s : State) (m : Memory) : State := { s with mem := m }

/-- The status answered by a step. -/
def State.answer (s : State) (st : StepStatus) : State := { s with lastStatus := some st }

/-! ### Memory -/

/-- The byte at an address, with no range check: the reader's view of Memory (`Mem[a]` of R10). -/
def State.byteAt (s : State) (a : Nat) : Byte := Memory.read s.mem a

/-- The word at an address, with no range check (`Mem16[a]` of R10). -/
def State.wordAt (s : State) (a : Nat) : Word := Memory.readWord s.mem a

/-- A byte access at `a` lies in Memory (20_memory.md R51). -/
def State.byteInRange (s : State) (a : Word) : Bool := decide (a.toNat < s.cfg.memSize)

/-- A word access at `a` lies in Memory; the second byte's address is taken without wrap (R52). -/
def State.wordInRange (s : State) (a : Word) : Bool := decide (a.toNat + 1 < s.cfg.memSize)

/-- `MemRead(addr, 1)` (R51). -/
def memRead1 (kind : AccessKind) (a : Word) (s : State) : Except Fault Byte :=
  if s.byteInRange a then .ok (s.byteAt a.toNat) else .error (.memOutOfRange kind a 1)

/-- `MemRead(addr, 2)` (R52, R53). -/
def memRead2 (kind : AccessKind) (a : Word) (s : State) : Except Fault Word :=
  if s.wordInRange a then .ok (s.wordAt a.toNat) else .error (.memOutOfRange kind a 2)

/-- `MemWrite(addr, 2, v)` (R54): both bytes at once, or the fault and nothing. -/
def memWrite2 (a v : Word) (s : State) : Except Fault State :=
  if s.wordInRange a then .ok (s.setMem (Memory.writeWord s.mem a.toNat v)) else .error (.memOutOfRange .write a 2)

/-! ### The stack unit -/

/-- `Push(v)` (44_stack.md R160): write at `sp`, then lower `sp` by 2 and raise `fsz` by 2. -/
def push (v : Word) (s : State) : Except Fault State := do
  let s ← memWrite2 (s.reg .sp) v s
  let s := s.setReg .sp (s.reg .sp - 2)
  return s.setFsz (s.fsz + 2)

/-- `Pop()` (R161): raise `sp` by 2 and lower `fsz` by 2, then read at the new `sp`. -/
def pop (s : State) : Except Fault (Word × State) := do
  let s := s.setReg .sp (s.reg .sp + 2)
  let s := s.setFsz (s.fsz - 2)
  let v ← memRead2 .read (s.reg .sp) s
  return (v, s)

/-! ### How a step ends -/

/-- The end of an instruction: `continue`, or the fault one of its micro-operations raised (40_fetch_decode.md R114, R115, R121). -/
def finish : Except Fault State → Host.Outcome State Fault Refusal
  | .ok s => .next (s.answer .continues)
  | .error f => .fault f

/-- The end of a step that met an opcode byte outside the closed set: the status `halt`, and nothing else (R116; 60_exceptions.md R211). -/
def State.halt (s : State) : State := s.answer .halts

end Sys2Proof.Machine
end

