-- ==== Sys2Proof/Machine/Operands.lean ====
section
/-! DEFINITION. The operand forms as the machine fetches them from the instruction stream: the three fetch primitives through `ip`
(spec/40_fetch_decode.md R110 to R112). A literal and an address are both `fetch16` (30_encoding.md R84, R85); a register operand is
`fetchRegisterIndex` (R86). There is no other addressing mode (R85). -/

namespace Sys2Proof.Machine

/-- `fetch()` (R110): the read comes first, so that a fault leaves `ip` where it was. -/
def fetch (s : State) : Except Fault (Byte × State) := do
  let b ← memRead1 .fetch (s.reg .ip) s
  return (b, s.setReg .ip (s.reg .ip + 1))

/-- `fetch16()` (R111): one word read, not two byte reads. -/
def fetch16 (s : State) : Except Fault (Word × State) := do
  let w ← memRead2 .fetch (s.reg .ip) s
  return (w, s.setReg .ip (s.reg .ip + 2))

/-- `fetchRegisterIndex()` (R112). -/
def fetchRegisterIndex (s : State) : Except Fault (Reg × State) := fetchReg fetch s

/-- Stages F and D of a step (R118): the opcode byte and all operand bytes, leaving `ip` past them. -/
def fetchInstr (s : State) : Except Fault (Decoded State) := decodeFrom fetch fetch16 s.cfg.opc s

end Sys2Proof.Machine
end

