-- ==== Sys2Proof/Machine/AddJne.lean ====
section
/-! DEFINITION. ADD (spec/42_add.md) and JNE (43_jne.md). -/

namespace Sys2Proof.Machine

/-- `ADD_REG_REG` (R140): both registers are sources, the destination is always `acc`. -/
def execAddRegReg (a b : Reg) (s : State) : Host.Outcome State Fault Refusal :=
  finish (.ok (s.setReg .acc (addWords (s.reg a) (s.reg b))))

/-- `JNE_LIT_MEM` (R150): the jump is direct, to the operand itself (R151; 90_conflicts.md C1). -/
def execJneLitMem (lit addr : Word) (s : State) : Host.Outcome State Fault Refusal :=
  finish (.ok (if wordsDiffer lit (s.reg .acc) then s.setReg .ip addr else s))

end Sys2Proof.Machine
end

