-- ==== Sys2Proof/Machine/Stack.lean ====
section
/-! DEFINITION. PSH and POP (spec/44_stack.md). -/

namespace Sys2Proof.Machine

/-- `PSH_LIT` (R164). -/
def execPshLit (lit : Word) (s : State) : Host.Outcome State Fault Refusal :=
  finish (push lit s)

/-- `PSH_REG` (R165): the register is read before the push moves `sp`. -/
def execPshReg (r : Reg) (s : State) : Host.Outcome State Fault Refusal :=
  finish (push (s.reg r) s)

/-- Pop a word into a register; the register is written after the pop, so that a popped `sp` overrides the moved one
(R166; the same step in 45_call_ret.md R181). -/
def popInto (r : Reg) (s : State) : Except Fault State := do
  let (v, s) ← pop s
  return s.setReg r v

/-- `POP_REG` (R166). -/
def execPopReg (r : Reg) (s : State) : Host.Outcome State Fault Refusal :=
  finish (popInto r s)

end Sys2Proof.Machine
end

