-- ==== Sys2Proof/Machine/CallRet.lean ====
section
/-! DEFINITION. The call and return sequencer, CALL and RET (spec/45_call_ret.md). -/

namespace Sys2Proof.Machine

/-- `r1` to `r8`, the registers a frame saves, in the order CALL pushes them (R180). -/
def savedRegs : List Reg := [.r1, .r2, .r3, .r4, .r5, .r6, .r7, .r8]

/-- Push registers one after another, the first of the list first. -/
def pushRegs : List Reg → State → Except Fault State
  | [], s => .ok s
  | r :: rs, s => do
    let s ← push (s.reg r) s
    pushRegs rs s

/-- `PushState()` (R180): `r1` to `r8`, the return address, the frame-size word, computed from `fsz` before its own push; then the new
frame begins. -/
def pushState (s : State) : Except Fault State := do
  let s ← pushRegs (savedRegs ++ [.ip]) s
  let s ← push (s.fsz + 2) s
  return (s.setReg .fp (s.reg .sp)).setFsz 0

/-- Pop words into registers one after another, the first of the list first. -/
def popRegs : List Reg → State → Except Fault State
  | [], s => .ok s
  | r :: rs, s => do
    let s ← popInto r s
    popRegs rs s

/-- `repeat n times: Pop()`, the values discarded but the reads made (R181; 92_eei_decisions.md D17). -/
def discard : Nat → State → Except Fault State
  | 0, s => .ok s
  | n + 1, s => do
    let (_, s) ← pop s
    discard n s

/-- `PopState()` (R181). -/
def popState (s : State) : Except Fault State := do
  let f := s.reg .fp
  let s := s.setReg .sp f
  let (size, s) ← pop s
  let s ← popRegs (.ip :: savedRegs.reverse) s
  let (n, s) ← pop s
  let s ← discard n.toNat s
  return (s.setReg .fp (f + size)).setFsz 0

/-- A call: save the state, then jump (R185, R186). -/
def call (target : Word) (s : State) : Except Fault State := do
  let s ← pushState s
  return s.setReg .ip target

/-- `CALL_LIT` (R185). -/
def execCallLit (addr : Word) (s : State) : Host.Outcome State Fault Refusal :=
  finish (call addr s)

/-- `CALL_REG` (R186, R187): the target is read from the register file before the state is pushed. -/
def execCallReg (r : Reg) (s : State) : Host.Outcome State Fault Refusal :=
  finish (call (s.reg r) s)

/-- `RET` (R190). -/
def execRet (s : State) : Host.Outcome State Fault Refusal :=
  finish (popState s)

end Sys2Proof.Machine
end

