-- ==== Sys2Proof/Machine/Mov.lean ====
section
/-! DEFINITION. The five MOV instructions (spec/41_mov.md). Each meaning runs after stages F and D, with `ip` past the instruction
(40_fetch_decode.md R118; notes/assumptions/24.md). A destination of `ip` is a jump (R136). -/

namespace Sys2Proof.Machine

/-- `MOV_LIT_REG` (R130). -/
def execMovLitReg (lit : Word) (d : Reg) (s : State) : Host.Outcome State Fault Refusal :=
  finish (.ok (s.setReg d lit))

/-- `MOV_LIT_MEM` (R131). -/
def execMovLitMem (lit addr : Word) (s : State) : Host.Outcome State Fault Refusal :=
  finish (memWrite2 addr lit s)

/-- `MOV_REG_REG` (R132). -/
def execMovRegReg (src d : Reg) (s : State) : Host.Outcome State Fault Refusal :=
  finish (.ok (s.setReg d (s.reg src)))

/-- `MOV_REG_MEM` (R133). -/
def execMovRegMem (src : Reg) (addr : Word) (s : State) : Host.Outcome State Fault Refusal :=
  finish (memWrite2 addr (s.reg src) s)

/-- `MOV_MEM_REG` (R134). -/
def execMovMemReg (addr : Word) (d : Reg) (s : State) : Host.Outcome State Fault Refusal :=
  finish do
    let v ← memRead2 .read addr s
    return s.setReg d v

end Sys2Proof.Machine
end

