-- ==== Sys2Proof/Machine/Dispatch.lean ====
section
/-! DEFINITION. `execute(op)` (spec/40_fetch_decode.md R114): one arm per instruction. The state is the one after stages F and D. -/

namespace Sys2Proof.Machine

def exec (i : Instr) (s : State) : Host.Outcome State Fault Refusal :=
  match i with
  | .movLitReg lit d => Sys2Proof.Machine.execMovLitReg lit d s
  | .movLitMem lit addr => Sys2Proof.Machine.execMovLitMem lit addr s
  | .movRegReg src d => Sys2Proof.Machine.execMovRegReg src d s
  | .movRegMem src addr => Sys2Proof.Machine.execMovRegMem src addr s
  | .movMemReg addr d => Sys2Proof.Machine.execMovMemReg addr d s
  | .addRegReg a b => Sys2Proof.Machine.execAddRegReg a b s
  | .jneLitMem lit addr => Sys2Proof.Machine.execJneLitMem lit addr s
  | .pshLit lit => Sys2Proof.Machine.execPshLit lit s
  | .pshReg r => Sys2Proof.Machine.execPshReg r s
  | .popReg r => Sys2Proof.Machine.execPopReg r s
  | .callLit addr => Sys2Proof.Machine.execCallLit addr s
  | .callReg r => Sys2Proof.Machine.execCallReg r s
  | .ret => Sys2Proof.Machine.execRet s

end Sys2Proof.Machine
end

