-- ==== Sys2Proof/Machine/Placement.lean ====
section
/-! DEFINITION. Bytes placed where the machine fetches its next instruction, at `ip`, `ip + 1`, … modulo 65536. -/

namespace Sys2Proof.Machine

/-- Write bytes at the address `a` and on, modulo 65536; a byte that would lie outside Memory is dropped
(notes/assumptions/23.md). -/
def placeBytes : List Byte → Word → State → State
  | [], _, s => s
  | b :: bs, a, s =>
    placeBytes bs (a + 1) (if s.byteInRange a then s.setMem (Memory.write s.mem a.toNat b) else s)

/-- The bytes of a table word at `ip`. -/
def placeTableWord (nbits w : Nat) (s : State) : State := placeBytes (tableBytes nbits w) (s.reg .ip) s

end Sys2Proof.Machine
end

