-- ==== Sys2Proof/Machine/Step.lean ====
section
/-! DEFINITION. One step (spec/40_fetch_decode.md R113, R118): fetch the opcode byte and the operand bytes, then run the instruction, or
halt on an opcode byte outside the closed set. -/

namespace Sys2Proof.Machine

/-- `step()` (R113). The three outcomes of 00_scope.md R12: `continue` and `halt` are next states with the status in `lastStatus`
(notes/assumptions/3.md), `fault` is the model's fault. -/
def step (s : State) : Host.Outcome State Fault Refusal :=
  match fetchInstr s with
  | .ok (.instr i s) => exec i s
  | .ok (.illegal _ s) => .next s.halt
  | .error f => .fault f

/-- The state with an instruction of opcode_table.json's numbering stored where the next step fetches. -/
def State.withFetchWord (s : State) (nbits w : Nat) : State := placeTableWord nbits w s

end Sys2Proof.Machine
end

