-- ==== Sys2Proof/Machine/Listing.lean ====
section
/-! DEFINITION. The assembly text as far as the spec keeps it (30_encoding.md R96 to R102): the mnemonics, the operand kinds each opcode takes,
the width of a literal, the spelling of a line, and the bytes a list of lines stands for. The lexer and the error classes of the assembler are
out of scope (00_scope.md R4). -/

namespace Sys2Proof.Machine

/-- The mnemonics of R98 and R99. -/
inductive Mnemonic where
  | mov | add | jne | psh | pop | call | ret
  deriving DecidableEq, Repr

/-- An operand of an assembly line (R97). -/
inductive AsmOperand where
  /-- A hex literal, `$` and digits. -/
  | hex (v : Word)
  /-- A memory address, `#` and digits. -/
  | mem (a : Word)
  /-- A register, by its name. -/
  | reg (r : Reg)
  deriving DecidableEq, Repr

/-- One line: a mnemonic and its operands, first to last (R96). -/
structure AsmLine where
  mnemonic : Mnemonic
  operands : List AsmOperand
  deriving DecidableEq, Repr

/-- The rows of R98 with two operands. -/
def twoOperandLine : Mnemonic → AsmOperand → AsmOperand → Option Instr
  | .mov, .hex v, .reg d => some (.movLitReg v d)
  | .mov, .hex v, .mem a => some (.movLitMem v a)
  | .mov, .reg r, .reg d => some (.movRegReg r d)
  | .mov, .reg r, .mem a => some (.movRegMem r a)
  | .mov, .mem a, .reg d => some (.movMemReg a d)
  | .add, .reg r, .reg d => some (.addRegReg r d)
  | .jne, .hex v, .mem a => some (.jneLitMem v a)
  | _, _, _ => none

/-- The rows of R98 and R99 with one operand. -/
def oneOperandLine : Mnemonic → AsmOperand → Option Instr
  | .psh, .hex v => some (.pshLit v)
  | .psh, .reg r => some (.pshReg r)
  | .pop, .reg r => some (.popReg r)
  | .call, .hex v => some (.callLit v)
  | .call, .reg r => some (.callReg r)
  | _, _ => none

/-- The instruction a line stands for: the opcode is chosen by the mnemonic and the kinds of its operands, and every other combination is refused
(R98; R99 for CALL and RET). There is no pseudo-instruction (R101). -/
def assembleLine (l : AsmLine) : Option Instr :=
  match l.operands with
  | [] => if l.mnemonic = .ret then some .ret else none
  | [a] => oneOperandLine l.mnemonic a
  | [a, b] => twoOperandLine l.mnemonic a b
  | _ => none

/-- The line that stands for an instruction (opcode_table.json's column "assembly"). -/
def instrLine : Instr → AsmLine
  | .movLitReg v d => ⟨.mov, [.hex v, .reg d]⟩
  | .movLitMem v a => ⟨.mov, [.hex v, .mem a]⟩
  | .movRegReg r d => ⟨.mov, [.reg r, .reg d]⟩
  | .movRegMem r a => ⟨.mov, [.reg r, .mem a]⟩
  | .movMemReg a d => ⟨.mov, [.mem a, .reg d]⟩
  | .addRegReg r d => ⟨.add, [.reg r, .reg d]⟩
  | .jneLitMem v a => ⟨.jne, [.hex v, .mem a]⟩
  | .pshLit v => ⟨.psh, [.hex v]⟩
  | .pshReg r => ⟨.psh, [.reg r]⟩
  | .popReg r => ⟨.pop, [.reg r]⟩
  | .callLit v => ⟨.call, [.hex v]⟩
  | .callReg r => ⟨.call, [.reg r]⟩
  | .ret => ⟨.ret, []⟩

/-- The bytes of a program, line after line from the first, with no gap (R102).
DESIGN CHOICE (notes/assumptions/28.md): a program with a refused line has no bytes at all. The spec takes no position on what a failed assembly
leaves behind (90_conflicts.md C7, 91_not_in_source.md N15); its R240 says only that no step runs on such an image. -/
def assemble (c : Opc) : List AsmLine → Option (List Byte)
  | [] => some []
  | l :: ls =>
    match assembleLine l, assemble c ls with
    | some i, some bs => some (encode c i ++ bs)
    | _, _ => none

/-- The value of a literal by its hexadecimal digits, first digit first: one, two or four of them; one or two stand for a value with zeros in
the high byte. No other number of digits is admitted (R97, R100; 90_conflicts.md C2). -/
def literalOfDigits : List (Fin 16) → Option Word
  | [a] => some (BitVec.ofNat 16 a.val)
  | [a, b] => some (BitVec.ofNat 16 (a.val * 16 + b.val))
  | [a, b, c, d] => some (BitVec.ofNat 16 (((a.val * 16 + b.val) * 16 + c.val) * 16 + d.val))
  | _ => none

/-! ### Spelling -/

/-- A hexadecimal digit, a capital letter above 9 (DESIGN CHOICE, notes/assumptions/29.md). -/
def hexDigit (n : Nat) : Char :=
  ['0', '1', '2', '3', '4', '5', '6', '7', '8', '9', 'A', 'B', 'C', 'D', 'E', 'F'].getD n '0'

/-- Four hexadecimal digits, as the spec writes every literal and address (R97). -/
def hexWord (v : Word) : List Char :=
  [hexDigit (v.toNat / 4096), hexDigit (v.toNat / 256 % 16), hexDigit (v.toNat / 16 % 16), hexDigit (v.toNat % 16)]

/-- The name of a register (10_state.md R20; R97). -/
def regName : Reg → String
  | .ip => "ip"
  | .acc => "acc"
  | .r1 => "r1"
  | .r2 => "r2"
  | .r3 => "r3"
  | .r4 => "r4"
  | .r5 => "r5"
  | .r6 => "r6"
  | .r7 => "r7"
  | .r8 => "r8"
  | .sp => "sp"
  | .fp => "fp"

/-- The spelling of a mnemonic, in lower case as the spec writes it (R98, R99). -/
def mnemonicText : Mnemonic → String
  | .mov => "mov"
  | .add => "add"
  | .jne => "jne"
  | .psh => "psh"
  | .pop => "pop"
  | .call => "call"
  | .ret => "ret"

/-- The spelling of an operand: `$` marks a literal, `#` an address (R97). -/
def operandText : AsmOperand → String
  | .hex v => "$" ++ String.ofList (hexWord v)
  | .mem a => "#" ++ String.ofList (hexWord a)
  | .reg r => regName r

/-- The spelling of a line, without a comment (R96); the white space, which R96 calls insignificant, is the model's (DESIGN CHOICE,
notes/assumptions/29.md). -/
def lineText (l : AsmLine) : String :=
  match l.operands.map operandText with
  | [] => mnemonicText l.mnemonic
  | os => mnemonicText l.mnemonic ++ " " ++ String.intercalate ", " os

end Sys2Proof.Machine
end

