-- ==== Sys2Proof/Machine/Control.lean ====
section
/-! DEFINITION. What the host can do (spec/60_exceptions.md R226): load an image before the first step, run, and inspect read-only.
Reset is `State.resetWith`, a single step is `step`, and terminating is asking for no more steps. -/

namespace Sys2Proof.Machine

/-- The loader (20_memory.md R68): the image's byte `k` becomes `Mem[k]`. Admitted only before the first step (R63, 92_eei_decisions.md
D22) and only for an image that fits (R68, 70_reset_and_hazards.md R242). -/
def State.load (image : List Byte) (s : State) : Option State :=
  if s.lastStatus = none ∧ s.cfg.Loadable image then some (s.setMem (Memory.writeBytes s.mem 0 image)) else none

/-- How a run of at most a given number of steps ends. -/
inductive RunEnd where
  /-- A step answered `halt`: the end of the run and its final state (40_fetch_decode.md R117). -/
  | halted (s : State)
  /-- A step faulted; there is no final state (60_exceptions.md R213). -/
  | faulted (f : Fault)
  /-- A step was refused; no step of this model is. -/
  | refused (r : Refusal)
  /-- The budget is used up and the run goes on; the hardware has no limit (70_reset_and_hazards.md R261). -/
  | running (s : State)
  deriving DecidableEq, Repr

/-- `run()` (R117) with a budget of steps (notes/assumptions/18.md): stop at the first `halt`. -/
def run : Nat → State → RunEnd
  | 0, s => .running s
  | n + 1, s =>
    match step s with
    | .next t => if t.lastStatus = some .halts then .halted t else run n t
    | .fault f => .faulted f
    | .refused r => .refused r

/-- The states that `run`'s per-step callback is shown, one after each completed step, the halting step among them; the callback only reads
(R117, R226, 92_eei_decisions.md D22). -/
def runTrace : Nat → State → List State
  | 0, _ => []
  | n + 1, s =>
    match step s with
    | .next t => if t.lastStatus = some .halts then [t] else t :: runTrace n t
    | .fault _ => []
    | .refused _ => []

/-- The register dump of the inspection port: the twelve named registers in order, and not `fsz` (60_exceptions.md R226). -/
def State.registerDump (s : State) : List (Reg × Word) :=
  [.ip, .acc, .r1, .r2, .r3, .r4, .r5, .r6, .r7, .r8, .sp, .fp].map (fun r => (r, s.reg r))

/-- The register dump as text, one line `name: 0xHHHH` for each register (R226); the digits above 9 are capitals (DESIGN CHOICE,
notes/assumptions/29.md). -/
def State.dumpLines (s : State) : List String :=
  s.registerDump.map (fun p => regName p.1 ++ ": 0x" ++ String.ofList (hexWord p.2))

/-- A window of Memory for inspection: `n` bytes from `a` on (R226, 20_memory.md R68).
DESIGN CHOICE (notes/assumptions/27.md): R68 says "fixed-width" windows and is silent on one that reaches past the end of Memory; the model cuts it
short at `MEM_SIZE`, and it is empty when it starts outside. -/
def State.memoryWindow (s : State) (a : Nat) : Nat → List Byte
  | 0 => []
  | n + 1 => if a < s.cfg.memSize then s.byteAt a :: s.memoryWindow (a + 1) n else []

end Sys2Proof.Machine
end

