-- ==== Sys2Proof/Safety.lean ====
section
/-! DEFINITION. The terms claims use: a well-formed state, the bytes an instruction occupies, the words a stack sequence touches, the
frame relation of spec/45_call_ret.md R183, and a safe run. -/

namespace Sys2Proof.Machine

/-- A state of a machine with admitted parameters and a Memory in canonical form. -/
abbrev State.wf (s : State) : Prop := s.cfg.wf ∧ Memory.wf s.cfg.memSize s.mem

/-- The `n` bytes at `a`, `a + 1`, … modulo 65536, as `ip` would meet them. -/
def State.bytesFrom (s : State) (a : Word) : Nat → List Byte
  | 0 => []
  | n + 1 => s.byteAt a.toNat :: s.bytesFrom (a + 1) n

/-- The first operand, in order, whose fetch leaves Memory, as the fault it raises; `a` is where the operands begin
(40_fetch_decode.md R110 to R112, R118). -/
def State.operandFault (s : State) : Word → List OperandKind → Option Fault
  | _, [] => none
  | a, .reg :: ks =>
    if s.byteInRange a then s.operandFault (a + 1) ks else some (.memOutOfRange .fetch a 1)
  | a, .lit :: ks =>
    if s.wordInRange a then s.operandFault (a + 2) ks else some (.memOutOfRange .fetch a 2)
  | a, .addr :: ks =>
    if s.wordInRange a then s.operandFault (a + 2) ks else some (.memOutOfRange .fetch a 2)

/-- `fsz = fp - sp` modulo 65536: the relation that makes RET give back the caller's `fp` (45_call_ret.md R183). -/
abbrev State.frameLinked (s : State) : Prop := s.fsz = s.reg .fp - s.reg .sp

/-- The address `a` is one of the two bytes of the word at `w`. -/
abbrev inWord (w : Word) (a : Nat) : Prop := a = w.toNat ∨ a = w.toNat + 1

/-- `a - 2k`, modulo 65536: where the push number `k` (from 0) writes when `sp` is `a` (44_stack.md R160). -/
abbrev pushAddr (a : Word) (k : Nat) : Word := a - BitVec.ofNat 16 (2 * k)

/-- `a + 2(k + 1)`, modulo 65536: where the pop number `k` (from 0) reads when `sp` is `a` (R161). -/
abbrev popAddr (a : Word) (k : Nat) : Word := a + BitVec.ofNat 16 (2 * (k + 1))

/-- From `s` to `t` every register but those listed is unchanged. -/
abbrev State.keepsRegs (s t : State) (changed : List Reg) : Prop := ∀ r, r ∉ changed → t.reg r = s.reg r

/-- From `s` to `t` every byte of Memory is unchanged. -/
abbrev State.keepsMemory (s t : State) : Prop := ∀ a, t.byteAt a = s.byteAt a

/-- From `s` to `t` every byte of Memory outside the listed words is unchanged. -/
abbrev State.keepsMemoryOutside (s t : State) (ws : List Word) : Prop :=
  ∀ a, (∀ w ∈ ws, ¬ inWord w a) → t.byteAt a = s.byteAt a

/-- `t` has the parameters of `s`, and the status answered is `continue` (40_fetch_decode.md R115). -/
abbrev State.continuesTo (s t : State) : Prop := t.cfg = s.cfg ∧ t.lastStatus = some .continues

/-- The registers an instruction may write after its bytes are fetched: the destination it names and those it writes without naming them
(10_state.md R23). -/
def writtenRegs : Instr → List Reg
  | .movLitReg _ d => [d]
  | .movLitMem _ _ => []
  | .movRegReg _ d => [d]
  | .movRegMem _ _ => []
  | .movMemReg _ d => [d]
  | .addRegReg _ _ => [.acc]
  | .jneLitMem _ _ => [.ip]
  | .pshLit _ => [.sp]
  | .pshReg _ => [.sp]
  | .popReg r => [.sp, r]
  | .callLit _ => [.sp, .fp, .ip]
  | .callReg _ => [.sp, .fp, .ip]
  | .ret => [.sp, .ip, .r8, .r7, .r6, .r5, .r4, .r3, .r2, .r1, .fp]

/-- Instruction bytes after the opcode, with every register code replaced by the canonical code of the register it names
(30_encoding.md R86, R92). -/
def canonicalOperands : List OperandKind → List Byte → List Byte
  | .reg :: ks, b :: bs => BitVec.ofNat 8 (b.toNat % 12) :: canonicalOperands ks bs
  | .lit :: ks, hi :: lo :: bs => hi :: lo :: canonicalOperands ks bs
  | .addr :: ks, hi :: lo :: bs => hi :: lo :: canonicalOperands ks bs
  | _, bs => bs

/-- The bytes decode to these instructions one after another, with no gap, and `rest` is left (30_encoding.md R80, R94). -/
def decodesAs (c : Opc) : List Byte → List Instr → List Byte → Prop
  | bs, [], rest => bs = rest
  | bs, i :: is, rest => ∃ mid, decode c bs = .ok (i, mid) ∧ decodesAs c mid is rest

/-- No step of the first `n` faults or is refused. -/
def State.safeFor : Nat → State → Prop
  | 0, _ => True
  | n + 1, s => ∃ t, step s = .next t ∧ t.safeFor n

end Sys2Proof.Machine
end

