-- ==== Sys2Proof/Certificates/Slice0/Obligations.lean ====
section
/-! DEFINITION. The statements about the machine, for the provers. `R<n>` and `D<n>` are the spec's rules and decisions; a docstring that
names a decision says that the statement rests on the spec's own choice. -/

open Sys2Proof Sys2Proof.Machine

/-! ### Reset and the host -/

/-- R40: `sp` and `fp` start at `MEM_SIZE - SP_INIT_OFFSET`, for every admitted choice of the parameters; with the
defaults (the spec's own, D2 and D3) at 0xFFFE. -/
def Obligations.ResetStackPointers : Prop :=
  (∀ c : Config, c.wf →
    ((State.resetWith c).reg .sp).toNat = c.memSize - c.spInitOffset ∧
      (State.resetWith c).reg .fp = (State.resetWith c).reg .sp) ∧
  State.reset.reg .sp = 0xFFFE ∧ State.reset.reg .fp = 0xFFFE

/-- R41 to R44, the spec's own decision D12: every other register, `fsz` and every byte of Memory are zero after reset, whatever the
parameters. That no status has been answered is the model's choice (log entry 4). -/
def Obligations.ResetClearsEverythingElse : Prop :=
  ∀ c : Config, (∀ r, r ≠ .sp → r ≠ .fp → (State.resetWith c).reg r = 0) ∧ (State.resetWith c).fsz = 0 ∧
    (∀ a, (State.resetWith c).byteAt a = 0) ∧ (State.resetWith c).cfg = c ∧ (State.resetWith c).lastStatus = none

/-- The invariants that steps are stated to keep hold after reset, for every admitted choice of the parameters and for the defaults. -/
def Obligations.ResetMeetsTheInvariants : Prop :=
  (∀ c : Config, c.wf → (State.resetWith c).wf ∧ (State.resetWith c).frameLinked) ∧ State.reset.wf

/-- R68, R242 (d), R63: before the first step an image that fits is loaded byte by byte from address 0 and nothing else changes; an image that
is too long, or a load after a step, is not admitted. The refusal of a late load is the model's reading of D22. -/
def Obligations.LoadPlacesTheImage : Prop :=
  ∀ (s : State) (image : List Byte),
    (s.lastStatus = none → image.length ≤ s.cfg.memSize →
      ∃ t, s.load image = some t ∧ (∀ (k : Nat) (h : k < image.length), t.byteAt k = image[k]) ∧
        (∀ a, image.length ≤ a → t.byteAt a = s.byteAt a) ∧ s.keepsRegs t [] ∧ t.fsz = s.fsz ∧ t.cfg = s.cfg ∧
        (s.wf → t.wf)) ∧
    (s.cfg.memSize < image.length → s.load image = none) ∧
    (s.lastStatus ≠ none → s.load image = none)

/-- R117, D13: a run ends at the first step that answers `halt`; the final state is the state after that step, no earlier step halted, and a larger
budget of steps changes nothing. The budget is the model's (log entry 18). -/
def Obligations.RunStopsAtTheFirstHalt : Prop :=
  ∀ (n : Nat) (s t : State), run n s = .halted t →
    (∃ k u, k < n ∧ run k s = .running u ∧ step u = .next t ∧ t.lastStatus = some .halts) ∧
    ∀ m, n ≤ m → run m s = .halted t

/-- R117, R226: the callback of a run that halts is shown the state after each step, in order and once, the halting step last; every step it is shown
before that answered `continue`. -/
def Obligations.CallbackSeesEachStep : Prop :=
  ∀ (n : Nat) (s t : State), run n s = .halted t →
    ∃ us, runTrace n s = us ++ [t] ∧ (∀ u ∈ us, u.lastStatus ≠ some .halts) ∧
      ∀ (k : Nat) (u : State), (runTrace n s)[k]? = some u → ∃ r, (s :: runTrace n s)[k]? = some r ∧ step r = .next u

/-- R226, R29: the register dump shows each of the twelve registers once, under its position in the order of R20, and is the same whatever
`fsz` is. -/
def Obligations.RegisterDumpShowsTheTwelve : Prop :=
  ∀ s : State, s.registerDump.length = 12 ∧
    (∀ r : Reg, s.registerDump[r.position]? = some (r, s.reg r)) ∧
    ∀ v, (s.setFsz v).registerDump = s.registerDump

/-! ### Encoding -/

/-- R102, R82, R84 to R87: for every opcode map with distinct values, decoding the encoding of any instruction, whatever bytes follow, gives the
instruction back with those bytes left. -/
def Obligations.DecodeOfEncode : Prop :=
  ∀ (c : Opc) (i : Instr) (rest : List Byte), c.Distinct → decode c (encode c i ++ rest) = .ok (i, rest)

/-- R80, R93, R94: the other direction. What the decoder reads from any bytes is those bytes, opcode first, except that a register code is
known only modulo 12: encoding the instruction gives the bytes back with canonical codes. No hypothesis on the opcode map. -/
def Obligations.EncodeOfDecode : Prop :=
  ∀ (c : Opc) (b : Byte) (bs rest : List Byte) (i : Instr), decode c (b :: bs) = .ok (i, rest) →
    encode c i ++ rest = b :: canonicalOperands i.op.operands bs

/-- R80, R82, E1: the length of every instruction's encoding is that of its format, and between 1 and 5 bytes. -/
def Obligations.EncodedLengths : Prop :=
  ∀ (c : Opc) (i : Instr), (encode c i).length = i.length ∧ 1 ≤ i.length ∧ i.length ≤ 5

/-- The byte listings of E1 (95_test_vectors.md), read by the default decoder. -/
def Obligations.ListedBytesDecode : Prop :=
  decode Opc.default [0x10, 0x12, 0x34, 0x02] = .ok (.movLitReg 0x1234 .r1, []) ∧
  decode Opc.default [0x11, 0x12, 0x34, 0x01, 0x00] = .ok (.movLitMem 0x1234 0x0100, []) ∧
  decode Opc.default [0x12, 0x02, 0x03] = .ok (.movRegReg .r1 .r2, []) ∧
  decode Opc.default [0x13, 0x02, 0x01, 0x00] = .ok (.movRegMem .r1 0x0100, []) ∧
  decode Opc.default [0x14, 0x01, 0x00, 0x02] = .ok (.movMemReg 0x0100 .r1, []) ∧
  decode Opc.default [0x15, 0x02, 0x03] = .ok (.addRegReg .r1 .r2, []) ∧
  decode Opc.default [0x16, 0x00, 0x05, 0x00, 0x00] = .ok (.jneLitMem 0x0005 0x0000, []) ∧
  decode Opc.default [0x17, 0x00, 0x42] = .ok (.pshLit 0x0042, []) ∧
  decode Opc.default [0x18, 0x02] = .ok (.pshReg .r1, []) ∧
  decode Opc.default [0x19, 0x02] = .ok (.popReg .r1, []) ∧
  decode Opc.default [0x1A, 0x00, 0x20] = .ok (.callLit 0x0020, []) ∧
  decode Opc.default [0x1B, 0x04] = .ok (.callReg .r3, []) ∧
  decode Opc.default [0x1C] = .ok (.ret, [])

/-- R98, R99, R101: the table of mnemonics and operand kinds names every instruction by exactly one line, and no other line is accepted. The rows for CALL and
RET are the spec's decision D15. -/
def Obligations.LinesNameInstructions : Prop :=
  (∀ i : Instr, assembleLine (instrLine i) = some i) ∧ ∀ (l : AsmLine) (i : Instr), assembleLine l = some i → l = instrLine i

/-- R102, R80: the bytes of an assembled program, whatever follows them, decode to its instructions in order with no gap or overlap, and their count is the
sum of the lengths; a program with a refused line has no bytes, which is the model's choice and no rule of the spec (log entry 28). -/
def Obligations.AssembledProgramDecodes : Prop :=
  ∀ (c : Opc) (ls : List AsmLine) (rest : List Byte), c.Distinct →
    (∀ bs, assemble c ls = some bs →
      ∃ is : List Instr, ls = is.map instrLine ∧ decodesAs c (bs ++ rest) is rest ∧ bs.length = (is.map Instr.length).sum) ∧
    ((∃ l ∈ ls, assembleLine l = none) → assemble c ls = none)

/-- R100, R84 (the spec's decision D14): a literal of one, two or four digits stands for its value in sixteen bits, any other number of digits is not admitted,
and the encoder writes two bytes whichever it was. -/
def Obligations.LiteralsTakeTwoBytes : Prop :=
  ∀ ds : List (Fin 16),
    ((literalOfDigits ds).isSome ↔ ds.length = 1 ∨ ds.length = 2 ∨ ds.length = 4) ∧
    ∀ v, literalOfDigits ds = some v →
      v.toNat = ds.foldl (fun n d => n * 16 + d.val) 0 ∧ ∀ c : Opc, (encode c (.pshLit v)).length = 3

/-- R91, R90: under every admitted opcode map exactly 243 of the 256 byte values are illegal opcodes, and 0x00 is one of them; under the defaults
they are 0x00 to 0x0F and 0x1D to 0xFF. -/
def Obligations.IllegalOpcodeCount : Prop :=
  (∀ c : Opc, c.wf →
    ((List.range 256).filter (fun n => (c.lookup (BitVec.ofNat 8 n)).isNone)).length = 243 ∧ c.lookup 0 = none) ∧
  ∀ b : Byte, Opc.default.lookup b = none ↔ b.toNat < 0x10 ∨ 0x1C < b.toNat

/-- R86: a register code byte selects the register at the position `b mod 12`; the canonical codes 0x00 to 0x0B select positions 0 to 11, each
register having its own, and every other byte selects a register too. -/
def Obligations.RegisterCodesReduceModulo12 : Prop :=
  (∀ b : Byte, (Reg.ofCode b).position = b.toNat % 12) ∧
  (∀ r : Reg, Reg.ofCode r.code = r ∧ canonicalCode r.code ∧ r.code.toNat = r.position) ∧
  ∀ b : Byte, ¬ canonicalCode b → ∃ r : Reg, Reg.ofCode b = r ∧ Reg.ofCode (BitVec.ofNat 8 (b.toNat % 12)) = r

/-! ### Memory and the fetch primitives -/

/-- R51: a byte read is the byte, or the fault when the address is not below `MEM_SIZE`; for every kind of access. -/
def Obligations.ByteRead : Prop :=
  ∀ (k : AccessKind) (a : Word) (s : State),
    (s.cfg.memSize ≤ a.toNat → memRead1 k a s = .error (.memOutOfRange k a 1)) ∧
    (a.toNat < s.cfg.memSize → memRead1 k a s = .ok (s.byteAt a.toNat))

/-- R52 (the spec gives the byte order its own mark at R53, D6, and the fault at R55, D7): a word read is `Mem[addr] * 256 + Mem[addr + 1]`, or the fault when the second byte, its address taken
without wrap, is outside Memory. -/
def Obligations.WordRead : Prop :=
  ∀ (k : AccessKind) (a : Word) (s : State),
    (s.cfg.memSize ≤ a.toNat + 1 → memRead2 k a s = .error (.memOutOfRange k a 2)) ∧
    (a.toNat + 1 < s.cfg.memSize → ∃ v, memRead2 k a s = .ok v ∧
      v.toNat = (s.byteAt a.toNat).toNat * 256 + (s.byteAt (a.toNat + 1)).toNat)

/-- R54: a word write puts the high byte at the address and the low byte after it, and changes no other byte and nothing else; or it faults. -/
def Obligations.WordWrite : Prop :=
  ∀ (a v : Word) (s : State),
    (s.cfg.memSize ≤ a.toNat + 1 → memWrite2 a v s = .error (.memOutOfRange .write a 2)) ∧
    (a.toNat + 1 < s.cfg.memSize → ∃ t, memWrite2 a v s = .ok t ∧
      (t.byteAt a.toNat).toNat = v.toNat / 256 ∧ (t.byteAt (a.toNat + 1)).toNat = v.toNat % 256 ∧
      s.keepsMemoryOutside t [a] ∧ s.keepsRegs t [] ∧ t.fsz = s.fsz ∧ t.cfg = s.cfg ∧ t.lastStatus = s.lastStatus)

/-- Two canonical memories that read the same everywhere are the same list: a memory has one representation (log entry 9). -/
def Obligations.CanonicalMemoryIsDetermined : Prop :=
  ∀ (size : Nat) (m m' : Memory), Memory.wf size m → Memory.wf size m' →
    (∀ a, Memory.read m a = Memory.read m' a) → m = m'

/-- R110, R111: what the two fetch primitives answer and that they change `ip` alone, by 1 and by 2 modulo 65536 (D21), or fault. -/
def Obligations.FetchPrimitives : Prop :=
  ∀ s : State,
    (s.byteInRange (s.reg .ip) = true → ∃ t, fetch s = .ok (s.byteAt (s.reg .ip).toNat, t) ∧
      t = s.setReg .ip (s.reg .ip + 1)) ∧
    (s.byteInRange (s.reg .ip) = false → fetch s = .error (.memOutOfRange .fetch (s.reg .ip) 1)) ∧
    (s.wordInRange (s.reg .ip) = true → ∃ t, fetch16 s =
        .ok (wordOfBytes (s.byteAt (s.reg .ip).toNat) (s.byteAt ((s.reg .ip).toNat + 1)), t) ∧
      t = s.setReg .ip (s.reg .ip + 2)) ∧
    (s.wordInRange (s.reg .ip) = false → fetch16 s = .error (.memOutOfRange .fetch (s.reg .ip) 2))

/-- R112: `fetchRegisterIndex` answers the register at the fetched byte modulo 12, a register whatever the byte is, changes `ip` alone, and depends on no
other register. -/
def Obligations.FetchRegisterIndexIsTotal : Prop :=
  ∀ s : State,
    (s.byteInRange (s.reg .ip) = true → ∃ r, fetchRegisterIndex s = .ok (r, s.setReg .ip (s.reg .ip + 1)) ∧
      r.position = (s.byteAt (s.reg .ip).toNat).toNat % 12 ∧ r.position < 12 ∧
      ∀ q v, q ≠ .ip → ∃ t, fetchRegisterIndex (s.setReg q v) = .ok (r, t)) ∧
    (s.byteInRange (s.reg .ip) = false → fetchRegisterIndex s = .error (.memOutOfRange .fetch (s.reg .ip) 1))

/-! ### The step -/

/-- R113, R114, R118: when the bytes at `ip` decode to an instruction and all of them lie in Memory, a step is that instruction run with `ip` moved past
it. -/
def Obligations.StepRunsTheDecodedInstruction : Prop :=
  ∀ (s : State) (i : Instr) (rest : List Byte), s.cfg.wf → s.byteInRange (s.reg .ip) = true →
    decode s.cfg.opc (s.bytesFrom (s.reg .ip) 5) = .ok (i, rest) →
    s.operandFault (s.reg .ip + 1) i.op.operands = none →
    step s = exec i (s.setReg .ip (s.reg .ip + BitVec.ofNat 16 i.length))

/-- R102 with R113: an instruction the encoder wrote at `ip` is the one the step runs. -/
def Obligations.StepRunsTheEncodedInstruction : Prop :=
  ∀ (s : State) (i : Instr), s.cfg.wf → s.byteInRange (s.reg .ip) = true →
    s.bytesFrom (s.reg .ip) i.length = encode s.cfg.opc i →
    s.operandFault (s.reg .ip + 1) i.op.operands = none →
    step s = exec i (s.setReg .ip (s.reg .ip + BitVec.ofNat 16 i.length))

/-- R110 to R112, R217, D7, D18: a fetch that leaves Memory ends the step in its fault, the opcode byte first, then the operands in order. -/
def Obligations.StepFaultsWhenAFetchLeavesMemory : Prop :=
  ∀ s : State,
    (s.byteInRange (s.reg .ip) = false → step s = .fault (.memOutOfRange .fetch (s.reg .ip) 1)) ∧
    ∀ (i : Instr) (rest : List Byte) (f : Fault), s.cfg.wf → s.byteInRange (s.reg .ip) = true →
      decode s.cfg.opc (s.bytesFrom (s.reg .ip) 5) = .ok (i, rest) →
      s.operandFault (s.reg .ip + 1) i.op.operands = some f → step s = .fault f

/-- R116: an opcode byte outside the closed set moves `ip` by one, answers `halt`, changes nothing else, stops the run loop and is not latched: the
step after it does not depend on it. -/
def Obligations.IllegalOpcodeHalts : Prop :=
  ∀ s : State, s.byteInRange (s.reg .ip) = true → s.cfg.opc.lookup (s.byteAt (s.reg .ip).toNat) = none →
    ∃ t, step s = .next t ∧ t.reg .ip = s.reg .ip + 1 ∧ s.keepsRegs t [.ip] ∧ t.fsz = s.fsz ∧ t.cfg = s.cfg ∧
      s.keepsMemory t ∧ t.lastStatus = some .halts ∧ (∀ n, run (n + 1) s = .halted t) ∧
      ∀ st, step { t with lastStatus := st } = step t

/-- R34 (a), R215: no step reads the status of the one before; the core does not remember that it halted. -/
def Obligations.NoStepReadsTheStatus : Prop :=
  ∀ (s : State) (st : Option StepStatus), step { s with lastStatus := st } = step s

/-- R115: every instruction answers `continue`, only an illegal opcode byte answers `halt`, and beside these there is nothing but the fault that
stands for a bad address. -/
def Obligations.OnlyIllegalOpcodesHalt : Prop :=
  (∀ (i : Instr) (s t : State), exec i s = .next t → t.lastStatus = some .continues) ∧
  (∀ s t : State, step s = .next t →
    (t.lastStatus = some .halts ↔ s.cfg.opc.lookup (s.byteAt (s.reg .ip).toNat) = none) ∧
    (t.lastStatus = some .continues ↔ s.cfg.opc.lookup (s.byteAt (s.reg .ip).toNat) ≠ none)) ∧
  ∀ s : State, (∃ t, step s = .next t) ∨ ∃ k a n, step s = .fault (.memOutOfRange k a n)

/-- The state stays well formed: the parameters stay admitted and Memory keeps its canonical form, from every well-formed state. -/
def Obligations.StepKeepsWellFormed : Prop :=
  ∀ s t : State, s.wf → step s = .next t → t.wf

/-- R34 (d): no step changes the parameters of the machine. -/
def Obligations.StepKeepsTheParameters : Prop :=
  ∀ s t : State, step s = .next t → t.cfg = s.cfg

/-- R55, R212: a fault names an access that does leave Memory; with the default 65536 bytes that is only a word access at 0xFFFF. -/
def Obligations.FaultsOnlyOutsideMemory : Prop :=
  ∀ (s : State) (k : AccessKind) (a : Word) (n : Nat), step s = .fault (.memOutOfRange k a n) →
    ((n = 1 ∧ k = .fetch ∧ s.cfg.memSize ≤ a.toNat) ∨ (n = 2 ∧ s.cfg.memSize ≤ a.toNat + 1)) ∧
    (s.cfg.memSize = 65536 → a = 0xFFFF ∧ n = 2)

/-- R212: after its bytes are fetched, `read` faults come from MOV_MEM_REG, POP_REG and RET only, `write` faults from the six that store only, and the other
four instructions never fault. -/
def Obligations.FaultKindsByInstruction : Prop :=
  ∀ (i : Instr) (s : State) (f : Fault), exec i s = .fault f →
    (∃ a, f = .memOutOfRange .read a 2 ∧ ((∃ m d, i = .movMemReg m d) ∨ (∃ r, i = .popReg r) ∨ i = .ret)) ∨
    (∃ a, f = .memOutOfRange .write a 2 ∧
      ((∃ v m, i = .movLitMem v m) ∨ (∃ r m, i = .movRegMem r m) ∨ (∃ v, i = .pshLit v) ∨ (∃ r, i = .pshReg r) ∨
        (∃ m, i = .callLit m) ∨ (∃ r, i = .callReg r)))

/-! ### The instructions: results, completion and frames -/

/-- R130, R132, R135: MOV of a literal or a register into a register, the destination being any register, `ip` too (R136). -/
def Obligations.MovIntoRegister : Prop :=
  ∀ (s : State) (d : Reg),
    (∀ lit : Word, ∃ t, exec (.movLitReg lit d) s = .next t ∧ t.reg d = lit ∧ s.keepsRegs t [d] ∧ t.fsz = s.fsz ∧
      s.keepsMemory t ∧ s.continuesTo t) ∧
    (∀ src : Reg, ∃ t, exec (.movRegReg src d) s = .next t ∧ t.reg d = s.reg src ∧ s.keepsRegs t [d] ∧ t.fsz = s.fsz ∧
      s.keepsMemory t ∧ s.continuesTo t)

/-- R131, R133, R54: MOV of a literal or a register into a Memory word: both bytes stored, high byte first, nothing else changed; or the fault. -/
def Obligations.MovIntoMemory : Prop :=
  ∀ (s : State) (addr v : Word) (i : Instr),
    (i = .movLitMem v addr ∨ ∃ src, i = .movRegMem src addr ∧ v = s.reg src) →
    (s.wordInRange addr = true → ∃ t, exec i s = .next t ∧
      (t.byteAt addr.toNat).toNat = v.toNat / 256 ∧ (t.byteAt (addr.toNat + 1)).toNat = v.toNat % 256 ∧
      s.keepsMemoryOutside t [addr] ∧ s.keepsRegs t [] ∧ t.fsz = s.fsz ∧ s.continuesTo t) ∧
    (s.wordInRange addr = false → exec i s = .fault (.memOutOfRange .write addr 2))

/-- R134, R52: MOV of a Memory word into a register, or the fault, in which case no next state is answered. -/
def Obligations.MovFromMemory : Prop :=
  ∀ (s : State) (addr : Word) (d : Reg),
    (s.wordInRange addr = true → ∃ t, exec (.movMemReg addr d) s = .next t ∧
      (t.reg d).toNat = (s.byteAt addr.toNat).toNat * 256 + (s.byteAt (addr.toNat + 1)).toNat ∧
      s.keepsRegs t [d] ∧ t.fsz = s.fsz ∧ s.keepsMemory t ∧ s.continuesTo t) ∧
    (s.wordInRange addr = false → exec (.movMemReg addr d) s = .fault (.memOutOfRange .read addr 2))

/-- R140: ADD writes the sum of the two named registers, modulo 65536, to `acc` and changes nothing else; every pair of registers, `acc` and `ip`
among them. -/
def Obligations.AddIntoAcc : Prop :=
  ∀ (s : State) (a b : Reg), ∃ t, exec (.addRegReg a b) s = .next t ∧
    (t.reg .acc).toNat = ((s.reg a).toNat + (s.reg b).toNat) % 65536 ∧
    s.keepsRegs t [.acc] ∧ t.fsz = s.fsz ∧ s.keepsMemory t ∧ s.continuesTo t

/-- R150, R151: JNE jumps to its operand itself when the literal differs from `acc`, and otherwise leaves `ip` past the instruction. -/
def Obligations.JneJumpsOnInequality : Prop :=
  ∀ (s : State) (lit addr : Word), ∃ t, exec (.jneLitMem lit addr) s = .next t ∧
    (lit ≠ s.reg .acc → t.reg .ip = addr) ∧ (lit = s.reg .acc → t.reg .ip = s.reg .ip) ∧
    s.keepsRegs t [.ip] ∧ t.fsz = s.fsz ∧ s.keepsMemory t ∧ s.continuesTo t

/-- R142: the comparison of JNE is inequality of sixteen-bit values, every bit taking part. -/
def Obligations.JneComparesEveryBit : Prop :=
  ∀ a b : Word, wordsDiffer a b = true ↔ ∃ k, k < 16 ∧ a.getLsbD k ≠ b.getLsbD k

/-- R160: `Push(v)` writes at the old `sp`, high byte first, then lowers `sp` by 2 and raises `fsz` by 2, modulo 65536, and changes nothing else; or it
faults. -/
def Obligations.PushEffect : Prop :=
  ∀ (v : Word) (s : State),
    (s.wordInRange (s.reg .sp) = true → ∃ t, push v s = .ok t ∧
      (t.byteAt (s.reg .sp).toNat).toNat = v.toNat / 256 ∧ (t.byteAt ((s.reg .sp).toNat + 1)).toNat = v.toNat % 256 ∧
      t.reg .sp = s.reg .sp - 2 ∧ t.fsz = s.fsz + 2 ∧
      s.keepsRegs t [.sp] ∧ s.keepsMemoryOutside t [s.reg .sp] ∧ t.cfg = s.cfg) ∧
    (s.wordInRange (s.reg .sp) = false → push v s = .error (.memOutOfRange .write (s.reg .sp) 2))

/-- R164, R165, R167: PSH of a literal or of any register, read before the push (`psh sp` pushes the old `sp`); or the fault. -/
def Obligations.PshPushes : Prop :=
  ∀ (s : State) (v : Word) (i : Instr), (i = .pshLit v ∨ ∃ r, i = .pshReg r ∧ v = s.reg r) →
    (s.wordInRange (s.reg .sp) = true → ∃ t, exec i s = .next t ∧ t.wordAt (s.reg .sp).toNat = v ∧
      t.reg .sp = s.reg .sp - 2 ∧ t.fsz = s.fsz + 2 ∧
      s.keepsRegs t [.sp] ∧ s.keepsMemoryOutside t [s.reg .sp] ∧ s.continuesTo t) ∧
    (s.wordInRange (s.reg .sp) = false → exec i s = .fault (.memOutOfRange .write (s.reg .sp) 2))

/-- R166, R161, R167: POP of a word into any register. The register is written last, so that `pop sp` leaves the popped word in `sp`. `fsz` falls by 2 (the
spec's decision D11). Memory is not changed. Or the fault. -/
def Obligations.PopPops : Prop :=
  ∀ (s : State) (r : Reg),
    (s.wordInRange (s.reg .sp + 2) = true → ∃ t, exec (.popReg r) s = .next t ∧
      t.reg r = s.wordAt (s.reg .sp + 2).toNat ∧ (r ≠ .sp → t.reg .sp = s.reg .sp + 2) ∧ t.fsz = s.fsz - 2 ∧
      s.keepsRegs t [.sp, r] ∧ s.keepsMemory t ∧ s.continuesTo t) ∧
    (s.wordInRange (s.reg .sp + 2) = false → exec (.popReg r) s = .fault (.memOutOfRange .read (s.reg .sp + 2) 2))

/-- R162: a pop right after a push gives back the word pushed, and `sp`, `fsz` and every other register are as before the push. That the pop
lowers `fsz` is the spec's decision D11 (log entry 11). -/
def Obligations.PopUndoesPush : Prop :=
  ∀ (s : State) (v : Word) (r : Reg), s.wordInRange (s.reg .sp) = true →
    ∃ t u, exec (.pshLit v) s = .next t ∧ exec (.popReg r) t = .next u ∧
      u.reg r = v ∧ s.keepsRegs u [r] ∧ u.fsz = s.fsz

/-- R185, R186, R180, R187: CALL with a literal, or with any register read before the state is pushed. When the ten words lie in Memory it writes `r1` to `r8`, the
return address and the frame size at `sp`, `sp - 2`, …, sets `fp` and `sp` to the old `sp` less 20, `fsz` to 0, and jumps; it changes no other byte and no
other register. -/
def Obligations.CallSavesAndJumps : Prop :=
  ∀ (s : State) (target : Word) (i : Instr), (i = .callLit target ∨ ∃ r, i = .callReg r ∧ target = s.reg r) →
    (∀ k < 10, s.wordInRange (pushAddr (s.reg .sp) k) = true) →
    ∃ t, exec i s = .next t ∧ t.reg .ip = target ∧ t.reg .sp = s.reg .sp - 20 ∧ t.reg .fp = s.reg .sp - 20 ∧
      t.fsz = 0 ∧ s.keepsRegs t [.ip, .sp, .fp] ∧
      (∀ (k : Nat) (h : k < 10), t.wordAt (pushAddr (s.reg .sp) k).toNat =
        [s.reg .r1, s.reg .r2, s.reg .r3, s.reg .r4, s.reg .r5, s.reg .r6, s.reg .r7, s.reg .r8,
          s.reg .ip, s.fsz + 20][k]) ∧
      s.keepsMemoryOutside t ((List.range 10).map (pushAddr (s.reg .sp))) ∧ s.continuesTo t

/-- R182: the frame as CALL leaves it, by its distance above the new `fp`. -/
def Obligations.FrameLayout : Prop :=
  ∀ (s t : State) (i : Instr), ((∃ a, i = .callLit a) ∨ ∃ r, i = .callReg r) → exec i s = .next t →
    t.wordAt (t.reg .fp + 2).toNat = s.fsz + 20 ∧ t.wordAt (t.reg .fp + 4).toNat = s.reg .ip ∧
    t.wordAt (t.reg .fp + 6).toNat = s.reg .r8 ∧ t.wordAt (t.reg .fp + 8).toNat = s.reg .r7 ∧
    t.wordAt (t.reg .fp + 10).toNat = s.reg .r6 ∧ t.wordAt (t.reg .fp + 12).toNat = s.reg .r5 ∧
    t.wordAt (t.reg .fp + 14).toNat = s.reg .r4 ∧ t.wordAt (t.reg .fp + 16).toNat = s.reg .r3 ∧
    t.wordAt (t.reg .fp + 18).toNat = s.reg .r2 ∧ t.wordAt (t.reg .fp + 20).toNat = s.reg .r1

/-- R190, R181: RET takes everything from Memory above `fp`. With the argument count `n` found at `fp + 22`, and the `11 + n` words in Memory, it restores the return
address and `r8` to `r1`, sets `sp` past the arguments and `fp` to `fp` plus the frame size, `fsz` to 0 (the spec's decision D11), and leaves `acc` and Memory as they
were. -/
def Obligations.RetRestores : Prop :=
  ∀ (s : State) (n : Word), n = s.wordAt (s.reg .fp + 22).toNat →
    (∀ k < 11 + n.toNat, s.wordInRange (popAddr (s.reg .fp) k) = true) →
    ∃ t, exec .ret s = .next t ∧
      t.reg .ip = s.wordAt (s.reg .fp + 4).toNat ∧
      t.reg .r8 = s.wordAt (s.reg .fp + 6).toNat ∧ t.reg .r7 = s.wordAt (s.reg .fp + 8).toNat ∧
      t.reg .r6 = s.wordAt (s.reg .fp + 10).toNat ∧ t.reg .r5 = s.wordAt (s.reg .fp + 12).toNat ∧
      t.reg .r4 = s.wordAt (s.reg .fp + 14).toNat ∧ t.reg .r3 = s.wordAt (s.reg .fp + 16).toNat ∧
      t.reg .r2 = s.wordAt (s.reg .fp + 18).toNat ∧ t.reg .r1 = s.wordAt (s.reg .fp + 20).toNat ∧
      t.reg .sp = s.reg .fp + 22 + 2 * n ∧
      t.reg .fp = s.reg .fp + s.wordAt (s.reg .fp + 2).toNat ∧
      t.reg .acc = s.reg .acc ∧ t.fsz = 0 ∧ s.keepsMemory t ∧ s.continuesTo t

/-- R185, R186, R217: CALL faults on the first of its ten pushes that leaves Memory. -/
def Obligations.CallFaultsOnTheFirstBadPush : Prop :=
  ∀ (s : State) (i : Instr) (k : Nat), ((∃ a, i = .callLit a) ∨ ∃ r, i = .callReg r) → k < 10 →
    (∀ j < k, s.wordInRange (pushAddr (s.reg .sp) j) = true) → s.wordInRange (pushAddr (s.reg .sp) k) = false →
    exec i s = .fault (.memOutOfRange .write (pushAddr (s.reg .sp) k) 2)

/-- R190, R181, R217, D17: RET faults on the first of its `11 + n` pops that leaves Memory, the discarding pops among them. -/
def Obligations.RetFaultsOnTheFirstBadPop : Prop :=
  ∀ (s : State) (n : Word) (k : Nat), n = s.wordAt (s.reg .fp + 22).toNat → k < 11 + n.toNat →
    (∀ j < k, s.wordInRange (popAddr (s.reg .fp) j) = true) → s.wordInRange (popAddr (s.reg .fp) k) = false →
    exec .ret s = .fault (.memOutOfRange .read (popAddr (s.reg .fp) k) 2)

/-- R181, R190: RET reads neither `sp` nor `fsz`, `ip` or `r1` to `r8`: its outcome is the same whatever they hold. It reads `fp`, it carries `acc` through, and
of what Memory below the frame holds nothing is said here. -/
def Obligations.RetReadsNeitherSpFszIpNorR1ToR8 : Prop :=
  ∀ (s : State) (r : Reg) (v w : Word), r ≠ .fp → r ≠ .acc →
    exec .ret ((s.setReg r v).setFsz w) = exec .ret s

/-! ### Whole-machine rules -/

/-- R23, R25 to R28: an instruction changes no register but those the table of R23 gives it. -/
def Obligations.OnlyListedRegistersChange : Prop :=
  ∀ (i : Instr) (s t : State), exec i s = .next t → s.keepsRegs t (writtenRegs i)

/-- R29, with D11: `fsz` rises by 2 at PSH, falls by 2 at POP, is 0 after CALL and RET, and nothing else changes it. -/
def Obligations.FrameCounterRule : Prop :=
  ∀ (i : Instr) (s t : State), exec i s = .next t →
    match i with
    | .pshLit _ | .pshReg _ => t.fsz = s.fsz + 2
    | .popReg _ => t.fsz = s.fsz - 2
    | .callLit _ | .callReg _ | .ret => t.fsz = 0
    | .movLitReg _ _ | .movLitMem _ _ | .movRegReg _ _ | .movRegMem _ _ | .movMemReg _ _ | .addRegReg _ _
    | .jneLitMem _ _ => t.fsz = s.fsz

/-- R29: a program cannot see `fsz` except through CALL: two states that differ only in it run every other instruction alike. -/
def Obligations.FrameCounterIsHidden : Prop :=
  ∀ (i : Instr) (s : State) (v : Word), (∀ a, i ≠ .callLit a) → (∀ r, i ≠ .callReg r) →
    match exec i s, exec i (s.setFsz v) with
    | .next t, .next u => u.regs = t.regs ∧ u.mem = t.mem ∧ u.cfg = t.cfg ∧ u.lastStatus = t.lastStatus
    | .fault f, .fault g => f = g
    | _, _ => False

/-- R183: `fsz = fp - sp` is kept by every instruction that writes neither `sp` nor `fp` through a register operand, RET apart; CALL establishes it
afresh. That POP lowers `fsz`, on which this rests, is the spec's decision D11 (log entry 11). -/
def Obligations.FrameLinkIsKept : Prop :=
  ∀ (i : Instr) (s t : State), exec i s = .next t →
    (((∃ a, i = .callLit a) ∨ ∃ r, i = .callReg r) → t.frameLinked) ∧
    (s.frameLinked → i ≠ .ret →
      (∀ d, d = .sp ∨ d = .fp → (∀ v, i ≠ .movLitReg v d) ∧ (∀ r, i ≠ .movRegReg r d) ∧ (∀ m, i ≠ .movMemReg m d) ∧
        i ≠ .popReg d) → t.frameLinked)

/-- R191, R183, R184: the matching return. A CALL runs; later the machine is at a RET with `fp` as that CALL set it, the ten words CALL wrote intact, and the
count word and the arguments of the caller in Memory, anything else being arbitrary. RET then resumes after the CALL with `r1` to `r8` as they were, drops the
count and the arguments, leaves `acc` to the callee, and gives back the caller's `fp` when `fsz = fp - sp` held at the CALL; when the caller's part of the frame was the
count and the arguments only, that relation holds again, with `sp = fp`. That `fsz` is 0 after RET, on which the last clause rests too, is the spec's
decision D11 (log entry 11). -/
def Obligations.MatchingReturnRestoresTheCaller : Prop :=
  ∀ (s t u : State) (i : Instr) (n : Word), ((∃ a, i = .callLit a) ∨ ∃ r, i = .callReg r) → exec i s = .next t →
    u.cfg = s.cfg → u.reg .fp = t.reg .fp →
    (∀ k < 10, u.wordAt (pushAddr (s.reg .sp) k).toNat = t.wordAt (pushAddr (s.reg .sp) k).toNat) →
    n = u.wordAt (s.reg .sp + 2).toNat → (∀ k < 1 + n.toNat, u.wordInRange (popAddr (s.reg .sp) k) = true) →
    ∃ v, exec .ret u = .next v ∧ v.reg .ip = s.reg .ip ∧
      (∀ r ∈ savedRegs, v.reg r = s.reg r) ∧ v.reg .acc = u.reg .acc ∧
      v.reg .sp = s.reg .sp + 2 + 2 * n ∧ v.fsz = 0 ∧ u.keepsMemory v ∧ u.continuesTo v ∧
      (s.frameLinked → v.reg .fp = s.reg .fp) ∧
      (s.frameLinked → s.fsz = 2 + 2 * n → v.reg .sp = s.reg .fp ∧ v.frameLinked)

/-- R119, D9: a source operand that names `ip` reads the address of the next instruction: a MOV of `ip` three bytes on, a PSH of `ip` two. -/
def Obligations.SourceIpIsTheNextInstruction : Prop :=
  ∀ (s : State) (rest : List Byte), s.cfg.wf → s.byteInRange (s.reg .ip) = true →
    (∀ d, decode s.cfg.opc (s.bytesFrom (s.reg .ip) 5) = .ok (.movRegReg .ip d, rest) →
      s.operandFault (s.reg .ip + 1) [.reg, .reg] = none →
      ∃ t, step s = .next t ∧ t.reg d = s.reg .ip + 3 ∧ t.reg .ip = s.reg .ip + 3) ∧
    (decode s.cfg.opc (s.bytesFrom (s.reg .ip) 5) = .ok (.pshReg .ip, rest) →
      s.operandFault (s.reg .ip + 1) [.reg] = none → s.wordInRange (s.reg .sp) = true →
      ∃ t, step s = .next t ∧ t.wordAt (s.reg .sp).toNat = s.reg .ip + 2 ∧ t.reg .ip = s.reg .ip + 2)

/-- R66: a stored word is what the very next fetch at its address reads, as bytes and as a word. -/
def Obligations.NextFetchSeesTheStore : Prop :=
  ∀ (s t : State) (v addr : Word), exec (.movLitMem v addr) s = .next t → t.reg .ip = addr →
    (∃ u, fetch t = .ok (highByte v, u)) ∧ ∃ u, fetch16 t = .ok (v, u)

/-- R98, R102: a program whose lines are all accepted has bytes, and they are the encodings of its instructions one after another; the other half of
`Obligations.AssembledProgramDecodes`. -/
def Obligations.AcceptedProgramsHaveBytes : Prop :=
  ∀ (c : Opc) (ls : List AsmLine), (∀ l ∈ ls, assembleLine l ≠ none) →
    ∃ is : List Instr, ls.map assembleLine = is.map some ∧ assemble c ls = some (is.flatMap (encode c))
end

