-- ==== Sys2Proof/Laws/Memory.lean ====
section
/-! SUPPORT. The laws of Memory: a read after a write of the same byte gives the byte written, a write leaves every other byte alone, the
same for words, and every operation keeps the canonical form. The read laws hold of every list, canonical or not. -/

namespace Sys2Proof

/-- The value of a word from its bytes (spec/20_memory.md R52). -/
theorem toNat_wordOfBytes (hi lo : Byte) : (wordOfBytes hi lo).toNat = hi.toNat * 256 + lo.toNat := by
  unfold wordOfBytes
  rw [BitVec.toNat_append, ← Nat.shiftLeft_add_eq_or_of_lt lo.isLt, Nat.shiftLeft_eq]

theorem toNat_highByte (v : Word) : (highByte v).toNat = v.toNat / 256 := by
  have := v.isLt
  simp only [highByte, BitVec.extractLsb'_toNat, Nat.shiftRight_eq_div_pow]
  omega

theorem toNat_lowByte (v : Word) : (lowByte v).toNat = v.toNat % 256 := by
  simp [lowByte]

/-- A word is made of its high and its low byte (R53). -/
theorem wordOfBytes_high_low (v : Word) : wordOfBytes (highByte v) (lowByte v) = v := by
  apply BitVec.eq_of_toNat_eq
  rw [toNat_wordOfBytes, toNat_highByte, toNat_lowByte]
  omega

theorem highByte_wordOfBytes (hi lo : Byte) : highByte (wordOfBytes hi lo) = hi := by
  have := lo.isLt
  apply BitVec.eq_of_toNat_eq
  rw [toNat_highByte, toNat_wordOfBytes]
  omega

theorem lowByte_wordOfBytes (hi lo : Byte) : lowByte (wordOfBytes hi lo) = lo := by
  have := lo.isLt
  apply BitVec.eq_of_toNat_eq
  rw [toNat_lowByte, toNat_wordOfBytes]
  omega

namespace Machine

theorem Memory.clear_cons (k a : Nat) (v : Byte) (m : Memory) :
    Memory.clear ((k, v) :: m) a = if k = a then Memory.clear m a else (k, v) :: Memory.clear m a := by
  by_cases h : k = a <;> simp [Memory.clear, h]

theorem Memory.read_clear (m : Memory) (a b : Nat) :
    Memory.read (Memory.clear m a) b = if b = a then Memory.blank else Memory.read m b := by
  induction m with
  | nil => simp [Memory.clear, Memory.read]
  | cons c m ih =>
    obtain ⟨k, v⟩ := c
    rw [Memory.clear_cons]
    by_cases hk : k = a
    · subst hk
      rw [if_pos rfl, ih, Memory.read]
      by_cases hb : b = k <;> simp [hb]
    · by_cases hb : b = k
      · subst hb
        simp [hk, Memory.read]
      · simp [hk, hb, ih, Memory.read]

/-- What a byte reads as after a byte is written, at the written address and at every other. -/
theorem Memory.read_write (m : Memory) (a b : Nat) (v : Byte) :
    Memory.read (Memory.write m a v) b = if b = a then v else Memory.read m b := by
  induction m with
  | nil =>
    simp only [Memory.write]
    split
    · rename_i h
      simp [Memory.read, h]
    · simp [Memory.read]
  | cons c m ih =>
    obtain ⟨k, w⟩ := c
    simp only [Memory.write]
    split
    · rename_i hka
      simp only [Memory.read, ih]
      by_cases hb : b = k
      · simp [hb, Nat.ne_of_lt hka]
      · simp [hb]
    · split
      · rename_i hv
        rw [Memory.read_clear, hv]
      · split
        · rename_i hak
          subst hak
          by_cases hb : b = a <;> simp [Memory.read, hb]
        · simp [Memory.read]

/-- A byte outside a written word reads as before. -/
theorem Memory.read_writeWord_of_ne (m : Memory) {a b : Nat} (v : Word) (h0 : b ≠ a) (h1 : b ≠ a + 1) :
    Memory.read (Memory.writeWord m a v) b = Memory.read m b := by
  simp [Memory.writeWord, Memory.read_write, h0, h1]

theorem Memory.read_writeWord_high (m : Memory) (a : Nat) (v : Word) :
    Memory.read (Memory.writeWord m a v) a = highByte v := by
  simp [Memory.writeWord, Memory.read_write]

theorem Memory.read_writeWord_low (m : Memory) (a : Nat) (v : Word) :
    Memory.read (Memory.writeWord m a v) (a + 1) = lowByte v := by
  simp [Memory.writeWord, Memory.read_write]

/-- A word read after a word written at the same address. -/
theorem Memory.readWord_writeWord (m : Memory) (a : Nat) (v : Word) :
    Memory.readWord (Memory.writeWord m a v) a = v := by
  rw [Memory.readWord, Memory.read_writeWord_high, Memory.read_writeWord_low, wordOfBytes_high_low]

/-- A word read after a word written at a disjoint address. -/
theorem Memory.readWord_writeWord_of_disjoint (m : Memory) {a b : Nat} (v : Word) (h : a + 2 ≤ b ∨ b + 2 ≤ a) :
    Memory.readWord (Memory.writeWord m a v) b = Memory.readWord m b := by
  rw [Memory.readWord, Memory.read_writeWord_of_ne _ _ (by omega) (by omega),
    Memory.read_writeWord_of_ne _ _ (by omega) (by omega), Memory.readWord]

/-- A byte outside a run of written bytes reads as before. -/
theorem Memory.read_writeBytes_of_outside (bs : List Byte) (m : Memory) {a b : Nat} (h : b < a ∨ a + bs.length ≤ b) :
    Memory.read (Memory.writeBytes m a bs) b = Memory.read m b := by
  induction bs generalizing m a with
  | nil => rfl
  | cons c bs ih =>
    rw [List.length_cons] at h
    rw [Memory.writeBytes, ih _ (by omega), Memory.read_write, if_neg (by omega)]

/-- A byte inside a run of written bytes reads as the byte written there. -/
theorem Memory.read_writeBytes (bs : List Byte) (m : Memory) (a k : Nat) (h : k < bs.length) :
    Memory.read (Memory.writeBytes m a bs) (a + k) = bs[k] := by
  induction bs generalizing m a k with
  | nil => simp at h
  | cons c bs ih =>
    rw [Memory.writeBytes]
    cases k with
    | zero =>
      rw [Memory.read_writeBytes_of_outside _ _ (by omega), Memory.read_write, if_pos (by omega)]
      rfl
    | succ k =>
      have := ih (Memory.write m a c) (a + 1) k (by simpa using h)
      rw [show a + (k + 1) = a + 1 + k by omega, this]
      rfl

/-! ### The canonical form is kept -/

theorem Memory.clear_wf {size : Nat} {m : Memory} (h : Memory.wf size m) (a : Nat) : Memory.wf size (Memory.clear m a) :=
  ⟨h.1.filter _, fun c hc => h.2 c (List.mem_of_mem_filter hc)⟩

theorem Memory.mem_write {m : Memory} {a : Nat} {v : Byte} {c : Host.Cell} (h : c ∈ Memory.write m a v) :
    c ∈ m ∨ (c = (a, v) ∧ v ≠ Memory.blank) := by
  induction m with
  | nil =>
    simp only [Memory.write] at h
    split at h
    · simp at h
    · exact .inr ⟨by simpa using h, by assumption⟩
  | cons d m ih =>
    obtain ⟨k, w⟩ := d
    simp only [Memory.write] at h
    split at h
    · rcases List.mem_cons.1 h with h | h
      · exact .inl (by simp [h])
      · rcases ih h with h | h
        · exact .inl (by simp [h])
        · exact .inr h
    · split at h
      · exact .inl (List.mem_of_mem_filter h)
      · split at h
        · rcases List.mem_cons.1 h with h | h
          · exact .inr ⟨h, by assumption⟩
          · exact .inl (by simp [h])
        · rcases List.mem_cons.1 h with h | h
          · exact .inr ⟨h, by assumption⟩
          · exact .inl h

/-- A byte write inside Memory keeps the canonical form. -/
theorem Memory.write_wf {size : Nat} {m : Memory} (h : Memory.wf size m) {a : Nat} (ha : a < size) (v : Byte) :
    Memory.wf size (Memory.write m a v) := by
  refine ⟨?_, fun c hc => ?_⟩
  · obtain ⟨hs, -⟩ := h
    induction m with
    | nil =>
      simp only [Memory.write]
      split <;> simp
    | cons d m ih =>
      obtain ⟨k, w⟩ := d
      obtain ⟨hd, hm⟩ := List.pairwise_cons.1 hs
      simp only [Memory.write]
      split
      · rename_i hka
        refine List.pairwise_cons.2 ⟨fun c hc => ?_, ih hm⟩
        rcases Memory.mem_write hc with hc | ⟨rfl, -⟩
        · exact hd c hc
        · exact hka
      · split
        · exact hs.filter _
        · split
          · rename_i hak
            exact List.pairwise_cons.2 ⟨fun c hc => hak ▸ hd c hc, hm⟩
          · refine List.pairwise_cons.2 ⟨fun c hc => ?_, hs⟩
            rcases List.mem_cons.1 hc with rfl | hc
            · show a < k
              omega
            · have : k < c.1 := hd c hc
              show a < c.1
              omega
  · rcases Memory.mem_write hc with hc | ⟨rfl, hv⟩
    · exact h.2 c hc
    · exact ⟨ha, hv⟩

/-- A word write inside Memory keeps the canonical form. -/
theorem Memory.writeWord_wf {size : Nat} {m : Memory} (h : Memory.wf size m) {a : Nat} (ha : a + 1 < size) (v : Word) :
    Memory.wf size (Memory.writeWord m a v) :=
  Memory.write_wf (Memory.write_wf h (by omega) _) ha _

/-- The loader's writes inside Memory keep the canonical form. -/
theorem Memory.writeBytes_wf {size : Nat} {m : Memory} (h : Memory.wf size m) (bs : List Byte) {a : Nat}
    (ha : a + bs.length ≤ size) : Memory.wf size (Memory.writeBytes m a bs) := by
  induction bs generalizing m a with
  | nil => exact h
  | cons b bs ih =>
    rw [List.length_cons] at ha
    exact ih (Memory.write_wf h (by omega) b) (by omega)

/-- Memory right after reset is canonical. -/
theorem Memory.nil_wf (size : Nat) : Memory.wf size [] :=
  ⟨.nil, fun _ hc => nomatch hc⟩

end Machine

end Sys2Proof
end

