-- ==== Sys2Proof/Laws/State.lean ====
section
/-! SUPPORT. One lemma per field per update of State, so that no proof unfolds a record update. -/

namespace Sys2Proof.Machine

section Fields

variable (s : State) (r q : Reg) (v w : Word) (m : Memory) (st : StepStatus)

theorem State.reg_setReg : (s.setReg r v).reg q = if q = r then v else s.reg q := by
  cases r <;> cases q <;> rfl

@[simp] theorem State.reg_setReg_self : (s.setReg r v).reg r = v := by cases r <;> rfl

@[simp] theorem State.reg_setReg_ne (h : q ≠ r) : (s.setReg r v).reg q = s.reg q := by
  rw [State.reg_setReg, if_neg h]

@[simp] theorem State.setReg_fsz : (s.setReg r v).fsz = s.fsz := rfl
@[simp] theorem State.setReg_mem : (s.setReg r v).mem = s.mem := rfl
@[simp] theorem State.setReg_cfg : (s.setReg r v).cfg = s.cfg := rfl
@[simp] theorem State.setReg_lastStatus : (s.setReg r v).lastStatus = s.lastStatus := rfl

@[simp] theorem State.setFsz_reg : (s.setFsz v).reg r = s.reg r := by cases r <;> rfl
@[simp] theorem State.setFsz_regs : (s.setFsz v).regs = s.regs := rfl
@[simp] theorem State.setFsz_fsz : (s.setFsz v).fsz = v := rfl
@[simp] theorem State.setFsz_mem : (s.setFsz v).mem = s.mem := rfl
@[simp] theorem State.setFsz_cfg : (s.setFsz v).cfg = s.cfg := rfl
@[simp] theorem State.setFsz_lastStatus : (s.setFsz v).lastStatus = s.lastStatus := rfl

@[simp] theorem State.setMem_reg : (s.setMem m).reg r = s.reg r := by cases r <;> rfl
@[simp] theorem State.setMem_regs : (s.setMem m).regs = s.regs := rfl
@[simp] theorem State.setMem_fsz : (s.setMem m).fsz = s.fsz := rfl
@[simp] theorem State.setMem_mem : (s.setMem m).mem = m := rfl
@[simp] theorem State.setMem_cfg : (s.setMem m).cfg = s.cfg := rfl
@[simp] theorem State.setMem_lastStatus : (s.setMem m).lastStatus = s.lastStatus := rfl

@[simp] theorem State.answer_reg : (s.answer st).reg r = s.reg r := by cases r <;> rfl
@[simp] theorem State.answer_regs : (s.answer st).regs = s.regs := rfl
@[simp] theorem State.answer_fsz : (s.answer st).fsz = s.fsz := rfl
@[simp] theorem State.answer_mem : (s.answer st).mem = s.mem := rfl
@[simp] theorem State.answer_cfg : (s.answer st).cfg = s.cfg := rfl
@[simp] theorem State.answer_lastStatus : (s.answer st).lastStatus = some st := rfl

@[simp] theorem State.halt_reg : s.halt.reg r = s.reg r := by cases r <;> rfl
@[simp] theorem State.halt_regs : s.halt.regs = s.regs := rfl
@[simp] theorem State.halt_fsz : s.halt.fsz = s.fsz := rfl
@[simp] theorem State.halt_mem : s.halt.mem = s.mem := rfl
@[simp] theorem State.halt_cfg : s.halt.cfg = s.cfg := rfl
@[simp] theorem State.halt_lastStatus : s.halt.lastStatus = some .halts := rfl

end Fields

section Views

variable (s : State) (r : Reg) (v a : Word) (st : StepStatus) (k : Nat)

@[simp] theorem State.setReg_byteAt : (s.setReg r v).byteAt k = s.byteAt k := rfl
@[simp] theorem State.setFsz_byteAt : (s.setFsz v).byteAt k = s.byteAt k := rfl
@[simp] theorem State.answer_byteAt : (s.answer st).byteAt k = s.byteAt k := rfl
@[simp] theorem State.halt_byteAt : s.halt.byteAt k = s.byteAt k := rfl

@[simp] theorem State.setReg_wordAt : (s.setReg r v).wordAt k = s.wordAt k := rfl
@[simp] theorem State.setFsz_wordAt : (s.setFsz v).wordAt k = s.wordAt k := rfl
@[simp] theorem State.answer_wordAt : (s.answer st).wordAt k = s.wordAt k := rfl
@[simp] theorem State.halt_wordAt : s.halt.wordAt k = s.wordAt k := rfl

@[simp] theorem State.setReg_byteInRange : (s.setReg r v).byteInRange a = s.byteInRange a := rfl
@[simp] theorem State.setFsz_byteInRange : (s.setFsz v).byteInRange a = s.byteInRange a := rfl
@[simp] theorem State.setMem_byteInRange (m : Memory) : (s.setMem m).byteInRange a = s.byteInRange a := rfl
@[simp] theorem State.answer_byteInRange : (s.answer st).byteInRange a = s.byteInRange a := rfl

@[simp] theorem State.setReg_wordInRange : (s.setReg r v).wordInRange a = s.wordInRange a := rfl
@[simp] theorem State.setFsz_wordInRange : (s.setFsz v).wordInRange a = s.wordInRange a := rfl
@[simp] theorem State.setMem_wordInRange (m : Memory) : (s.setMem m).wordInRange a = s.wordInRange a := rfl
@[simp] theorem State.answer_wordInRange : (s.answer st).wordInRange a = s.wordInRange a := rfl

end Views

/-- Two register files that agree on every register are equal. -/
theorem Regs.eq_of_reg {s t : State} (h : ∀ r, s.reg r = t.reg r) : s.regs = t.regs := by
  have h0 := h .ip
  have h1 := h .acc
  have h2 := h .r1
  have h3 := h .r2
  have h4 := h .r3
  have h5 := h .r4
  have h6 := h .r5
  have h7 := h .r6
  have h8 := h .r7
  have h9 := h .r8
  have h10 := h .sp
  have h11 := h .fp
  simp only [State.reg] at *
  cases hs : s.regs
  cases ht : t.regs
  simp_all

/-- Two states are equal when they agree on every register and on every other field. -/
theorem State.eq_of_fields {s t : State} (hr : ∀ r, s.reg r = t.reg r) (hf : s.fsz = t.fsz) (hm : s.mem = t.mem)
    (hc : s.cfg = t.cfg) (hl : s.lastStatus = t.lastStatus) : s = t := by
  have := Regs.eq_of_reg hr
  cases s
  cases t
  simp_all

/-- Writing a register's own value changes nothing. -/
theorem State.setReg_reg_self (s : State) (r : Reg) : s.setReg r (s.reg r) = s := by
  cases r <;> rfl

/-- Writing a register twice leaves the second value. -/
theorem State.setReg_setReg_self (s : State) (r : Reg) (v w : Word) : (s.setReg r v).setReg r w = s.setReg r w := by
  cases r <;> rfl

/-- Writes of different registers commute. -/
theorem State.setReg_comm (s : State) {r q : Reg} (h : r ≠ q) (v w : Word) :
    (s.setReg r v).setReg q w = (s.setReg q w).setReg r v := by
  cases r <;> cases q <;> first | rfl | exact absurd rfl h

end Sys2Proof.Machine
end

