-- ==== Sys2Proof/Laws/Ops.lean ====
section
/-! SUPPORT. One lemma for each shared operation that says everything it can do, so that no later proof unfolds it: the memory primitives,
the stack primitives, and the sequences of pushes and pops that CALL and RET are made of. -/

namespace Sys2Proof.Machine

/-! ### Memory -/

theorem State.wordInRange_iff {s : State} {a : Word} : s.wordInRange a = true ↔ a.toNat + 1 < s.cfg.memSize := by
  simp [State.wordInRange]

theorem State.byteInRange_iff {s : State} {a : Word} : s.byteInRange a = true ↔ a.toNat < s.cfg.memSize := by
  simp [State.byteInRange]

theorem memRead1_ok {k : AccessKind} {a : Word} {s : State} (h : s.byteInRange a) :
    memRead1 k a s = .ok (s.byteAt a.toNat) := by simp [memRead1, h]

theorem memRead1_error {k : AccessKind} {a : Word} {s : State} (h : s.byteInRange a = false) :
    memRead1 k a s = .error (.memOutOfRange k a 1) := by simp [memRead1, h]

theorem memRead2_ok {k : AccessKind} {a : Word} {s : State} (h : s.wordInRange a) :
    memRead2 k a s = .ok (s.wordAt a.toNat) := by simp [memRead2, h]

theorem memRead2_error {k : AccessKind} {a : Word} {s : State} (h : s.wordInRange a = false) :
    memRead2 k a s = .error (.memOutOfRange k a 2) := by simp [memRead2, h]

theorem memWrite2_ok {a v : Word} {s : State} (h : s.wordInRange a) :
    memWrite2 a v s = .ok (s.setMem (Memory.writeWord s.mem a.toNat v)) := by simp [memWrite2, h]

theorem memWrite2_error {a v : Word} {s : State} (h : s.wordInRange a = false) :
    memWrite2 a v s = .error (.memOutOfRange .write a 2) := by simp [memWrite2, h]

/-! ### One push, one pop -/

/-- The state after a push that does not fault (spec/44_stack.md R160). -/
def pushed (v : Word) (s : State) : State :=
  ((s.setMem (Memory.writeWord s.mem (s.reg .sp).toNat v)).setReg .sp (s.reg .sp - 2)).setFsz (s.fsz + 2)

theorem push_ok {v : Word} {s : State} (h : s.wordInRange (s.reg .sp)) : push v s = .ok (pushed v s) := by
  simp [push, memWrite2_ok h, pushed, bind, Except.bind, pure, Except.pure]

theorem push_error {v : Word} {s : State} (h : s.wordInRange (s.reg .sp) = false) :
    push v s = .error (.memOutOfRange .write (s.reg .sp) 2) := by
  simp [push, memWrite2_error h, bind, Except.bind]

/-- The state after a pop that does not fault (R161). -/
def popped (s : State) : State := (s.setReg .sp (s.reg .sp + 2)).setFsz (s.fsz - 2)

@[simp] theorem pushed_sp (v : Word) (s : State) : (pushed v s).reg .sp = s.reg .sp - 2 := by simp [pushed]
@[simp] theorem pushed_reg {r : Reg} (h : r ≠ .sp) (v : Word) (s : State) : (pushed v s).reg r = s.reg r := by
  simp [pushed, h]
@[simp] theorem pushed_fsz (v : Word) (s : State) : (pushed v s).fsz = s.fsz + 2 := rfl
@[simp] theorem pushed_cfg (v : Word) (s : State) : (pushed v s).cfg = s.cfg := rfl
@[simp] theorem pushed_lastStatus (v : Word) (s : State) : (pushed v s).lastStatus = s.lastStatus := rfl
@[simp] theorem pushed_mem (v : Word) (s : State) :
    (pushed v s).mem = Memory.writeWord s.mem (s.reg .sp).toNat v := rfl
@[simp] theorem pushed_wordInRange (v : Word) (s : State) (a : Word) :
    (pushed v s).wordInRange a = s.wordInRange a := rfl

@[simp] theorem popped_sp (s : State) : (popped s).reg .sp = s.reg .sp + 2 := by simp [popped]
@[simp] theorem popped_reg {r : Reg} (h : r ≠ .sp) (s : State) : (popped s).reg r = s.reg r := by simp [popped, h]
@[simp] theorem popped_fsz (s : State) : (popped s).fsz = s.fsz - 2 := rfl
@[simp] theorem popped_cfg (s : State) : (popped s).cfg = s.cfg := rfl
@[simp] theorem popped_lastStatus (s : State) : (popped s).lastStatus = s.lastStatus := rfl
@[simp] theorem popped_mem (s : State) : (popped s).mem = s.mem := rfl
@[simp] theorem popped_wordAt (s : State) (a : Nat) : (popped s).wordAt a = s.wordAt a := rfl
@[simp] theorem popped_wordInRange (s : State) (a : Word) : (popped s).wordInRange a = s.wordInRange a := rfl

theorem pop_eq (s : State) :
    pop s = (memRead2 .read (s.reg .sp + 2) (popped s) >>= fun v => pure (v, popped s)) := by
  rw [← popped_sp]
  rfl

theorem pop_ok {s : State} (h : s.wordInRange (s.reg .sp + 2)) :
    pop s = .ok (s.wordAt (s.reg .sp + 2).toNat, popped s) := by
  rw [pop_eq, memRead2_ok (s := popped s) h]
  rfl

theorem pop_error {s : State} (h : s.wordInRange (s.reg .sp + 2) = false) :
    pop s = .error (.memOutOfRange .read (s.reg .sp + 2) 2) := by
  rw [pop_eq, memRead2_error (s := popped s) h]
  rfl

theorem popInto_ok {r : Reg} {s : State} (h : s.wordInRange (s.reg .sp + 2)) :
    popInto r s = .ok ((popped s).setReg r (s.wordAt (s.reg .sp + 2).toNat)) := by
  simp [popInto, pop_ok h, bind, Except.bind, pure, Except.pure]

theorem popInto_error {r : Reg} {s : State} (h : s.wordInRange (s.reg .sp + 2) = false) :
    popInto r s = .error (.memOutOfRange .read (s.reg .sp + 2) 2) := by
  simp [popInto, pop_error h, bind, Except.bind]

/-! ### Where several pushes or pops go -/

/-- The fault of the first of `n` pushes that would leave Memory when `sp` is `a`, if there is one: the pushes write at `a`, `a - 2`, …
modulo 65536 (spec/44_stack.md R160; 60_exceptions.md R217). -/
def State.pushFault (s : State) (a : Word) : Nat → Option Fault
  | 0 => none
  | n + 1 => if s.wordInRange a then s.pushFault (a - 2) n else some (.memOutOfRange .write a 2)

/-- The fault of the first of `n` pops that would leave Memory when `sp` is `a`, if there is one: the pops read at `a + 2`, `a + 4`, …
modulo 65536 (R161; R217). -/
def State.popFault (s : State) (a : Word) : Nat → Option Fault
  | 0 => none
  | n + 1 => if s.wordInRange (a + 2) then s.popFault (a + 2) n else some (.memOutOfRange .read (a + 2) 2)

/-- Whether a run of pushes leaves Memory depends on the size of Memory alone. -/
theorem State.pushFault_congr {s t : State} (h : s.cfg.memSize = t.cfg.memSize) (a : Word) (n : Nat) :
    s.pushFault a n = t.pushFault a n := by
  induction n generalizing a with
  | zero => rfl
  | succ n ih => simp [State.pushFault, State.wordInRange, h, ih]

/-- Whether a run of pops leaves Memory depends on the size of Memory alone. -/
theorem State.popFault_congr {s t : State} (h : s.cfg.memSize = t.cfg.memSize) (a : Word) (n : Nat) :
    s.popFault a n = t.popFault a n := by
  induction n generalizing a with
  | zero => rfl
  | succ n ih => simp [State.popFault, State.wordInRange, h, ih]

@[simp] theorem pushed_pushFault (v : Word) (s : State) (a : Word) (n : Nat) :
    (pushed v s).pushFault a n = s.pushFault a n := State.pushFault_congr (s := pushed v s) (t := s) rfl a n

@[simp] theorem popped_popFault (s : State) (a : Word) (n : Nat) : (popped s).popFault a n = s.popFault a n :=
  State.popFault_congr (s := popped s) (t := s) rfl a n

@[simp] theorem State.setReg_popFault (s : State) (r : Reg) (v a : Word) (n : Nat) :
    (s.setReg r v).popFault a n = s.popFault a n :=
  State.popFault_congr (s := s.setReg r v) (t := s) rfl a n

theorem word_sub_step (a : Word) (k : Nat) : a - 2 - BitVec.ofNat 16 (2 * k) = a - BitVec.ofNat 16 (2 * (k + 1)) := by
  apply BitVec.eq_of_toNat_eq
  simp
  omega

theorem word_add_step (a : Word) (k : Nat) : a + 2 + BitVec.ofNat 16 (2 * k) = a + BitVec.ofNat 16 (2 * (k + 1)) := by
  apply BitVec.eq_of_toNat_eq
  simp
  omega

theorem State.popFault_one (s : State) (a : Word) :
    s.popFault a 1 = if s.wordInRange (a + 2) then none else some (.memOutOfRange .read (a + 2) 2) := rfl

/-- A run of pushes, cut in two. -/
theorem State.pushFault_add (s : State) (a : Word) (m n : Nat) :
    s.pushFault a (m + n) = (s.pushFault a m).or (s.pushFault (a - BitVec.ofNat 16 (2 * m)) n) := by
  induction m generalizing a with
  | zero => simp [State.pushFault]
  | succ m ih =>
    rw [Nat.succ_add, State.pushFault, State.pushFault, ih, word_sub_step]
    split <;> rfl

/-- A run of pops, cut in two. -/
theorem State.popFault_add (s : State) (a : Word) (m n : Nat) :
    s.popFault a (m + n) = (s.popFault a m).or (s.popFault (a + BitVec.ofNat 16 (2 * m)) n) := by
  induction m generalizing a with
  | zero => simp [State.popFault]
  | succ m ih =>
    rw [Nat.succ_add, State.popFault, State.popFault, ih, word_add_step]
    split <;> rfl

/-- A run of pushes that does not leave Memory has each of its words in Memory. -/
theorem State.wordInRange_of_pushFault {s : State} {a : Word} {n : Nat} (h : s.pushFault a n = none) {k : Nat} (hk : k < n) :
    s.wordInRange (a - BitVec.ofNat 16 (2 * k)) = true := by
  induction n generalizing a k with
  | zero => omega
  | succ n ih =>
    rw [State.pushFault] at h
    split at h
    · cases k with
      | zero => simpa
      | succ k => simpa only [word_sub_step] using ih h (k := k) (by omega)
    · cases h

/-- A run of pops that does not leave Memory has each of its words in Memory. -/
theorem State.wordInRange_of_popFault {s : State} {a : Word} {n : Nat} (h : s.popFault a n = none) {k : Nat} (hk : k < n) :
    s.wordInRange (a + BitVec.ofNat 16 (2 * (k + 1))) = true := by
  induction n generalizing a k with
  | zero => omega
  | succ n ih =>
    rw [State.popFault] at h
    split at h
    · cases k with
      | zero => simpa
      | succ k => simpa only [word_add_step] using ih h (k := k) (by omega)
    · cases h

/-- No push of a run leaves Memory exactly when each of its words lies in Memory. -/
theorem State.pushFault_eq_none {s : State} {a : Word} {n : Nat} :
    s.pushFault a n = none ↔ ∀ k < n, s.wordInRange (pushAddr a k) = true := by
  refine ⟨fun h k hk => State.wordInRange_of_pushFault h hk, fun h => ?_⟩
  induction n generalizing a with
  | zero => rfl
  | succ n ih =>
    have h0 : s.wordInRange a = true := by
      rw [← show pushAddr a 0 = a by simp [pushAddr]]
      exact h 0 (by omega)
    rw [State.pushFault, if_pos h0]
    exact ih fun k hk => by rw [pushAddr, word_sub_step]; exact h (k + 1) (by omega)

/-- No pop of a run leaves Memory exactly when each of its words lies in Memory. -/
theorem State.popFault_eq_none {s : State} {a : Word} {n : Nat} :
    s.popFault a n = none ↔ ∀ k < n, s.wordInRange (popAddr a k) = true := by
  refine ⟨fun h k hk => State.wordInRange_of_popFault h hk, fun h => ?_⟩
  induction n generalizing a with
  | zero => rfl
  | succ n ih =>
    have h0 : s.wordInRange (a + 2) = true := h 0 (by omega)
    rw [State.popFault, if_pos h0]
    exact ih fun k hk => by rw [popAddr, word_add_step]; exact h (k + 1) (by omega)

/-- The first push of a run that leaves Memory gives the run's fault. -/
theorem State.pushFault_eq_some {s : State} {a : Word} {n k : Nat} (hk : k < n)
    (h : ∀ j < k, s.wordInRange (pushAddr a j) = true) (hf : s.wordInRange (pushAddr a k) = false) :
    s.pushFault a n = some (.memOutOfRange .write (pushAddr a k) 2) := by
  rw [show n = k + (n - k - 1 + 1) by omega, State.pushFault_add, State.pushFault_eq_none.2 h, Option.none_or,
    State.pushFault, hf]
  rfl

/-- The first pop of a run that leaves Memory gives the run's fault. -/
theorem State.popFault_eq_some {s : State} {a : Word} {n k : Nat} (hk : k < n)
    (h : ∀ j < k, s.wordInRange (popAddr a j) = true) (hf : s.wordInRange (popAddr a k) = false) :
    s.popFault a n = some (.memOutOfRange .read (popAddr a k) 2) := by
  have e : a + BitVec.ofNat 16 (2 * k) + 2 = popAddr a k := by
    apply BitVec.eq_of_toNat_eq
    simp
    omega
  rw [show n = k + (n - k - 1 + 1) by omega, State.popFault_add, State.popFault_eq_none.2 h, Option.none_or,
    State.popFault, e, hf]
  rfl

end Sys2Proof.Machine
end

