-- ==== Sys2Proof/Laws/CallRet.lean ====
section
/-! SUPPORT. What the push and pop sequences of CALL and RET do (spec/45_call_ret.md R180, R181): one lemma for the outcome of each sequence,
and one for each thing its result holds. -/

namespace Sys2Proof.Machine

/-! ### Several pushes -/

/-- The words pushed one after another, the first of the list first. -/
def pushWords : List Word → State → Except Fault State
  | [], s => .ok s
  | v :: vs, s => push v s >>= pushWords vs

/-- The state after pushes that do not fault. -/
def pushedAll : List Word → State → State
  | [], s => s
  | v :: vs, s => pushedAll vs (pushed v s)

/-- A run of pushes ends in the fault of the first push that leaves Memory, or completes. -/
theorem pushWords_eq (vs : List Word) (s : State) :
    pushWords vs s = match s.pushFault (s.reg .sp) vs.length with
      | none => .ok (pushedAll vs s)
      | some f => .error f := by
  induction vs generalizing s with
  | nil => rfl
  | cons v vs ih =>
    rw [pushWords, List.length_cons, State.pushFault, pushedAll]
    cases h : s.wordInRange (s.reg .sp)
    · simp [push_error h, bind, Except.bind]
    · rw [push_ok h]
      show pushWords vs (pushed v s) = _
      rw [ih, pushed_sp, pushed_pushFault, if_pos rfl]

theorem pushWords_append (vs ws : List Word) (s : State) :
    pushWords (vs ++ ws) s = (pushWords vs s >>= pushWords ws) := by
  induction vs generalizing s with
  | nil => rfl
  | cons v vs ih =>
    simp only [List.cons_append, pushWords]
    cases push v s with
    | error f => rfl
    | ok t => exact ih t

@[simp] theorem pushedAll_sp (vs : List Word) (s : State) :
    (pushedAll vs s).reg .sp = s.reg .sp - BitVec.ofNat 16 (2 * vs.length) := by
  induction vs generalizing s with
  | nil => simp [pushedAll]
  | cons v vs ih => rw [pushedAll, ih, pushed_sp, word_sub_step, List.length_cons]

@[simp] theorem pushedAll_reg {r : Reg} (h : r ≠ .sp) (vs : List Word) (s : State) :
    (pushedAll vs s).reg r = s.reg r := by
  induction vs generalizing s with
  | nil => rfl
  | cons v vs ih => rw [pushedAll, ih, pushed_reg h]

@[simp] theorem pushedAll_fsz (vs : List Word) (s : State) :
    (pushedAll vs s).fsz = s.fsz + BitVec.ofNat 16 (2 * vs.length) := by
  induction vs generalizing s with
  | nil => simp [pushedAll]
  | cons v vs ih => rw [pushedAll, ih, pushed_fsz, word_add_step, List.length_cons]

@[simp] theorem pushedAll_cfg (vs : List Word) (s : State) : (pushedAll vs s).cfg = s.cfg := by
  induction vs generalizing s with
  | nil => rfl
  | cons v vs ih => rw [pushedAll, ih, pushed_cfg]

@[simp] theorem pushedAll_lastStatus (vs : List Word) (s : State) : (pushedAll vs s).lastStatus = s.lastStatus := by
  induction vs generalizing s with
  | nil => rfl
  | cons v vs ih => rw [pushedAll, ih, pushed_lastStatus]

/-- A byte outside the pushed words reads as before. -/
theorem pushedAll_byteAt (vs : List Word) (s : State) (a : Nat)
    (h : ∀ k < vs.length, ¬ inWord (s.reg .sp - BitVec.ofNat 16 (2 * k)) a) :
    (pushedAll vs s).byteAt a = s.byteAt a := by
  induction vs generalizing s with
  | nil => rfl
  | cons v vs ih =>
    have h0 : ¬ inWord (s.reg .sp) a := by simpa using h 0 (by simp)
    rw [pushedAll, ih]
    · exact Memory.read_writeWord_of_ne _ _ (fun e => h0 (.inl e)) (fun e => h0 (.inr e))
    · intro k hk
      rw [pushed_sp, word_sub_step]
      exact h (k + 1) (by simpa using hk)

/-- Two stack words at different depths do not overlap, whatever `sp` is, odd or even, wrapped or not. -/
theorem stack_words_disjoint (a : Word) {k : Nat} (h0 : 0 < k) (hk : k < 32768) :
    (a - BitVec.ofNat 16 (2 * k)).toNat + 2 ≤ a.toNat ∨ a.toNat + 2 ≤ (a - BitVec.ofNat 16 (2 * k)).toNat := by
  have := a.isLt
  simp only [BitVec.toNat_sub, BitVec.toNat_ofNat]
  omega

/-- A word that no push overlaps reads as before. -/
theorem pushedAll_wordAt_of_disjoint (vs : List Word) (s : State) (a : Nat)
    (h : ∀ k < vs.length, (s.reg .sp - BitVec.ofNat 16 (2 * k)).toNat + 2 ≤ a ∨
      a + 2 ≤ (s.reg .sp - BitVec.ofNat 16 (2 * k)).toNat) :
    (pushedAll vs s).wordAt a = s.wordAt a := by
  have key : ∀ b, (b = a ∨ b = a + 1) → (pushedAll vs s).byteAt b = s.byteAt b := fun b hb =>
    pushedAll_byteAt vs s b fun k hk hw => by
      have := h k hk
      unfold inWord at hw
      omega
  show wordOfBytes ((pushedAll vs s).byteAt a) ((pushedAll vs s).byteAt (a + 1)) = _
  rw [key a (.inl rfl), key (a + 1) (.inr rfl)]
  rfl

/-- The word at the depth of the `k`-th push is the `k`-th word pushed. -/
theorem pushedAll_wordAt (vs : List Word) (s : State) (hl : vs.length ≤ 32768) {k : Nat} (hk : k < vs.length) :
    (pushedAll vs s).wordAt (s.reg .sp - BitVec.ofNat 16 (2 * k)).toNat = vs[k] := by
  induction vs generalizing s k with
  | nil => simp at hk
  | cons v vs ih =>
    rw [List.length_cons] at hl hk
    cases k with
    | zero =>
      rw [pushedAll, pushedAll_wordAt_of_disjoint]
      · rw [show s.reg .sp - BitVec.ofNat 16 (2 * 0) = s.reg .sp by simp]
        exact Memory.readWord_writeWord s.mem (s.reg .sp).toNat v
      · intro j hj
        rw [pushed_sp, word_sub_step]
        simpa using stack_words_disjoint (s.reg .sp) (k := j + 1) (by omega) (by omega)
    | succ k =>
      have := ih (pushed v s) (by omega) (k := k) (by omega)
      rwa [pushed_sp, word_sub_step] at this

/-! ### CALL -/

/-- The ten words CALL pushes, in order (R180): `r1` to `r8`, the return address, the frame size. -/
def frameWords (s : State) : List Word := savedRegs.map s.reg ++ [s.reg .ip, s.fsz + 20]

theorem frameWords_length (s : State) : (frameWords s).length = 10 := rfl

theorem pushRegs_eq {rs : List Reg} (h : Reg.sp ∉ rs) (s : State) : pushRegs rs s = pushWords (rs.map s.reg) s := by
  induction rs generalizing s with
  | nil => rfl
  | cons r rs ih =>
    simp only [List.mem_cons, not_or] at h
    simp only [pushRegs, List.map_cons, pushWords]
    cases hw : s.wordInRange (s.reg .sp)
    · rw [push_error hw]
      rfl
    · rw [push_ok hw]
      show pushRegs rs _ = pushWords _ _
      rw [ih h.2, show rs.map (pushed (s.reg r) s).reg = rs.map s.reg from
        List.map_congr_left fun q hq => pushed_reg (fun e => h.2 (e ▸ hq)) _ _]

/-- The state CALL leaves before it jumps. -/
def calledState (s : State) : State :=
  ((pushedAll (frameWords s) s).setReg .fp (s.reg .sp - 20)).setFsz 0

theorem pushState_eq (s : State) :
    pushState s = match s.pushFault (s.reg .sp) 10 with
      | none => .ok (calledState s)
      | some f => .error f := by
  have hsplit : pushState s = (pushWords (frameWords s) s >>= fun t =>
      .ok ((t.setReg .fp (t.reg .sp)).setFsz 0)) := by
    rw [show frameWords s = (savedRegs ++ [Reg.ip]).map s.reg ++ [s.fsz + 20] from rfl, pushWords_append, pushState,
      pushRegs_eq (by decide), pushWords_eq]
    cases s.pushFault (s.reg .sp) ((savedRegs ++ [Reg.ip]).map s.reg).length with
    | some f => rfl
    | none =>
      show (push ((pushedAll _ s).fsz + 2) _ >>= _) = (push _ _ >>= _) >>= _
      rw [pushedAll_fsz, show s.fsz + BitVec.ofNat 16 (2 * ((savedRegs ++ [Reg.ip]).map s.reg).length) + 2 = s.fsz + 20 by
        rw [show ((savedRegs ++ [Reg.ip]).map s.reg).length = 9 from rfl]
        bv_omega]
      cases push (s.fsz + 20) (pushedAll ((savedRegs ++ [Reg.ip]).map s.reg) s) <;> rfl
  rw [hsplit, pushWords_eq, frameWords_length]
  cases s.pushFault (s.reg .sp) 10 with
  | some f => rfl
  | none =>
    show Except.ok _ = Except.ok _
    rw [calledState, pushedAll_sp]
    rfl

theorem call_eq (target : Word) (s : State) :
    call target s = match s.pushFault (s.reg .sp) 10 with
      | none => .ok ((calledState s).setReg .ip target)
      | some f => .error f := by
  rw [call, pushState_eq]
  cases s.pushFault (s.reg .sp) 10 <;> rfl

/-! ### RET -/

/-- The state after discarding pops that do not fault. -/
def discarded (n : Nat) (s : State) : State :=
  (s.setReg .sp (s.reg .sp + BitVec.ofNat 16 (2 * n))).setFsz (s.fsz - BitVec.ofNat 16 (2 * n))

theorem discarded_popped (n : Nat) (s : State) : discarded n (popped s) = discarded (n + 1) s := by
  refine State.eq_of_fields (fun r => ?_) ?_ rfl rfl rfl
  · by_cases h : r = .sp
    · subst h
      simp only [discarded, State.setFsz_reg, State.reg_setReg_self, popped_sp, word_add_step]
    · simp [discarded, h]
  · simp only [discarded, State.setFsz_fsz, popped_fsz]
    rw [← word_sub_step]

theorem discard_eq (n : Nat) (s : State) :
    discard n s = match s.popFault (s.reg .sp) n with
      | none => .ok (discarded n s)
      | some f => .error f := by
  induction n generalizing s with
  | zero =>
    show Except.ok s = Except.ok _
    congr 1
    refine State.eq_of_fields (fun r => ?_) ?_ rfl rfl rfl
    · by_cases h : r = .sp
      · subst h
        simp [discarded]
      · simp [discarded, h]
    · simp [discarded]
  | succ n ih =>
    rw [discard, State.popFault]
    cases h : s.wordInRange (s.reg .sp + 2)
    · rw [pop_error h]
      rfl
    · rw [pop_ok h]
      show discard n (popped s) = _
      rw [ih, popped_sp, popped_popFault, discarded_popped, if_pos rfl]

/-- The state after pops into registers that do not fault. -/
def poppedRegs : List Reg → State → State
  | [], s => s
  | r :: rs, s => poppedRegs rs ((popped s).setReg r (s.wordAt (s.reg .sp + 2).toNat))

theorem popRegs_eq {rs : List Reg} (h : Reg.sp ∉ rs) (s : State) :
    popRegs rs s = match s.popFault (s.reg .sp) rs.length with
      | none => .ok (poppedRegs rs s)
      | some f => .error f := by
  induction rs generalizing s with
  | nil => rfl
  | cons r rs ih =>
    simp only [List.mem_cons, not_or] at h
    rw [popRegs, List.length_cons, State.popFault, poppedRegs]
    cases hw : s.wordInRange (s.reg .sp + 2)
    · rw [popInto_error hw]
      rfl
    · rw [popInto_ok hw]
      show popRegs rs _ = _
      rw [ih h.2, State.reg_setReg_ne _ _ _ _ h.1, popped_sp, State.setReg_popFault,
        popped_popFault, if_pos rfl]

theorem poppedRegs_sp {rs : List Reg} (h : Reg.sp ∉ rs) (s : State) :
    (poppedRegs rs s).reg .sp = s.reg .sp + BitVec.ofNat 16 (2 * rs.length) := by
  induction rs generalizing s with
  | nil => simp [poppedRegs]
  | cons r rs ih =>
    simp only [List.mem_cons, not_or] at h
    rw [poppedRegs, ih h.2, State.reg_setReg_ne _ _ _ _ h.1, popped_sp, word_add_step, List.length_cons]

theorem poppedRegs_reg_of_not_mem {rs : List Reg} {r : Reg} (hr : r ≠ .sp) (h : r ∉ rs) (s : State) :
    (poppedRegs rs s).reg r = s.reg r := by
  induction rs generalizing s with
  | nil => rfl
  | cons q rs ih =>
    simp only [List.mem_cons, not_or] at h
    rw [poppedRegs, ih h.2, State.reg_setReg_ne _ _ _ _ h.1, popped_reg hr]

@[simp] theorem poppedRegs_mem (rs : List Reg) (s : State) : (poppedRegs rs s).mem = s.mem := by
  induction rs generalizing s with
  | nil => rfl
  | cons r rs ih => rw [poppedRegs, ih, State.setReg_mem, popped_mem]

@[simp] theorem poppedRegs_cfg (rs : List Reg) (s : State) : (poppedRegs rs s).cfg = s.cfg := by
  induction rs generalizing s with
  | nil => rfl
  | cons r rs ih => rw [poppedRegs, ih, State.setReg_cfg, popped_cfg]

@[simp] theorem poppedRegs_lastStatus (rs : List Reg) (s : State) : (poppedRegs rs s).lastStatus = s.lastStatus := by
  induction rs generalizing s with
  | nil => rfl
  | cons r rs ih => rw [poppedRegs, ih, State.setReg_lastStatus, popped_lastStatus]

/-- The register popped `k`-th holds the word at the depth of the `k`-th pop. -/
theorem poppedRegs_reg {rs : List Reg} (h : Reg.sp ∉ rs) (hd : rs.Nodup) (s : State) {k : Nat} (hk : k < rs.length) :
    (poppedRegs rs s).reg rs[k] = s.wordAt (s.reg .sp + BitVec.ofNat 16 (2 * (k + 1))).toNat := by
  induction rs generalizing s k with
  | nil => simp at hk
  | cons r rs ih =>
    simp only [List.mem_cons, not_or] at h
    obtain ⟨hr, hd⟩ := List.nodup_cons.1 hd
    cases k with
    | zero =>
      simp only [List.getElem_cons_zero, poppedRegs]
      rw [poppedRegs_reg_of_not_mem (Ne.symm h.1) hr, State.reg_setReg_self]
      rfl
    | succ k =>
      simp only [List.getElem_cons_succ, poppedRegs]
      rw [ih h.2 hd _ (by simpa using hk), State.reg_setReg_ne _ _ _ _ h.1, popped_sp, word_add_step]
      rfl

/-- The registers RET pops, in order (R181). -/
def returnRegs : List Reg := .ip :: savedRegs.reverse

/-- The state RET has reached when it has popped the return address and `r8` to `r1`. -/
def restoredState (s : State) : State := poppedRegs returnRegs (popped (s.setReg .sp (s.reg .fp)))

/-- The argument count RET pops (R181, R182). -/
def argCount (s : State) : Word := s.wordAt (s.reg .fp + 22).toNat

/-- The state after RET. -/
def returnedState (s : State) : State :=
  ((discarded (argCount s).toNat (popped (restoredState s))).setReg .fp
    (s.reg .fp + s.wordAt (s.reg .fp + 2).toNat)).setFsz 0

theorem restoredState_sp (s : State) : (restoredState s).reg .sp = s.reg .fp + 20 := by
  rw [restoredState, poppedRegs_sp (by decide), popped_sp, State.reg_setReg_self,
    show returnRegs.length = 9 from rfl]
  bv_omega

theorem restoredState_cfg (s : State) : (restoredState s).cfg = s.cfg := by simp [restoredState]

theorem restoredState_wordAt (s : State) (a : Nat) : (restoredState s).wordAt a = s.wordAt a := by
  simp [State.wordAt, restoredState]

theorem restoredState_wordInRange (s : State) (a : Word) : (restoredState s).wordInRange a = s.wordInRange a := by
  simp [State.wordInRange, restoredState_cfg]

/-- The last part of RET: the count and the arguments it says (R181). -/
theorem dropArguments_eq (s : State) :
    (pop (restoredState s) >>= fun p => discard p.1.toNat p.2) =
      match s.popFault (s.reg .fp + 20) (1 + (argCount s).toNat) with
      | none => .ok (discarded (argCount s).toNat (popped (restoredState s)))
      | some f => .error f := by
  have e : s.reg .fp + 20 + 2 = s.reg .fp + 22 := by bv_omega
  rw [State.popFault_add, State.popFault_one, show s.reg .fp + 20 + BitVec.ofNat 16 (2 * 1) = s.reg .fp + 22 from e, e]
  cases h : s.wordInRange (s.reg .fp + 22)
  · rw [pop_error (by rw [restoredState_sp, restoredState_wordInRange, e, h]), restoredState_sp, e]
    rfl
  · rw [pop_ok (by rw [restoredState_sp, restoredState_wordInRange, e, h]), restoredState_sp, e, restoredState_wordAt]
    show discard (argCount s).toNat (popped (restoredState s)) = _
    rw [discard_eq, popped_sp, restoredState_sp, e,
      State.popFault_congr (t := s) (by rw [popped_cfg, restoredState_cfg]), if_pos rfl, Option.none_or]

/-- RET ends in the fault of the first pop that leaves Memory, or completes. -/
theorem popState_eq (s : State) :
    popState s = match s.popFault (s.reg .fp) (11 + (argCount s).toNat) with
      | none => .ok (returnedState s)
      | some f => .error f := by
  have hcut : s.popFault (s.reg .fp) (11 + (argCount s).toNat) =
      (s.popFault (s.reg .fp) 1).or ((s.popFault (s.reg .fp + 2) 9).or
        (s.popFault (s.reg .fp + 20) (1 + (argCount s).toNat))) := by
    rw [show 11 + (argCount s).toNat = 1 + (9 + (1 + (argCount s).toNat)) by omega, State.popFault_add, State.popFault_add]
    rw [show s.reg .fp + BitVec.ofNat 16 (2 * 1) = s.reg .fp + 2 from rfl,
      show s.reg .fp + 2 + BitVec.ofNat 16 (2 * 9) = s.reg .fp + 20 by bv_omega]
  have hshape : popState s = (pop (s.setReg .sp (s.reg .fp)) >>= fun p => popRegs returnRegs p.2 >>= fun t =>
      (pop t >>= fun q => discard q.1.toNat q.2) >>= fun u => .ok ((u.setReg .fp (s.reg .fp + p.1)).setFsz 0)) := by
    rw [popState]
    cases pop (s.setReg .sp (s.reg .fp)) with
    | error f => rfl
    | ok p =>
      show (popRegs returnRegs p.2 >>= _) = (popRegs returnRegs p.2 >>= _)
      congr 1
      funext t
      cases pop t <;> rfl
  rw [hcut, hshape, State.popFault_one]
  cases h0 : s.wordInRange (s.reg .fp + 2)
  · rw [pop_error (by rw [State.reg_setReg_self, State.setReg_wordInRange, h0]), State.reg_setReg_self]
    rfl
  rw [pop_ok (by rw [State.reg_setReg_self, State.setReg_wordInRange, h0]), State.reg_setReg_self, if_pos rfl, Option.none_or]
  show (popRegs returnRegs (popped (s.setReg .sp (s.reg .fp))) >>= _) = _
  rw [popRegs_eq (by decide), popped_sp, State.reg_setReg_self, popped_popFault, State.setReg_popFault,
    show returnRegs.length = 9 from rfl]
  cases s.popFault (s.reg .fp + 2) 9 with
  | some f => rfl
  | none =>
    rw [Option.none_or]
    show ((pop (restoredState s) >>= fun q => discard q.1.toNat q.2) >>= _) = _
    rw [dropArguments_eq]
    cases s.popFault (s.reg .fp + 20) (1 + (argCount s).toNat) <;> rfl

end Sys2Proof.Machine
end

