-- ==== Sys2Proof/Laws/Fetch.lean ====
section
/-! SUPPORT. What fetching an instruction through `ip` can do (spec/40_fetch_decode.md R110 to R114, R118): it agrees with the decoder of plain
bytes on the bytes at `ip`, or it ends in the first fetch fault, or it meets an illegal opcode byte. -/

namespace Sys2Proof.Machine

theorem fetch_eq (s : State) :
    fetch s = if s.byteInRange (s.reg .ip) then .ok (s.byteAt (s.reg .ip).toNat, s.setReg .ip (s.reg .ip + 1))
      else .error (.memOutOfRange .fetch (s.reg .ip) 1) := by
  cases h : s.byteInRange (s.reg .ip)
  · rw [fetch, memRead1_error h]
    rfl
  · rw [fetch, memRead1_ok h]
    rfl

theorem fetch16_eq (s : State) :
    fetch16 s = if s.wordInRange (s.reg .ip) then .ok (s.wordAt (s.reg .ip).toNat, s.setReg .ip (s.reg .ip + 2))
      else .error (.memOutOfRange .fetch (s.reg .ip) 2) := by
  cases h : s.wordInRange (s.reg .ip)
  · rw [fetch16, memRead2_error h]
    rfl
  · rw [fetch16, memRead2_ok h]
    rfl

theorem fetchRegisterIndex_eq (s : State) :
    fetchReg fetch s =
      if s.byteInRange (s.reg .ip) then .ok (Reg.ofCode (s.byteAt (s.reg .ip).toNat), s.setReg .ip (s.reg .ip + 1))
      else .error (.memOutOfRange .fetch (s.reg .ip) 1) := by
  rw [fetchReg, fetch_eq]
  cases s.byteInRange (s.reg .ip) <;> rfl

/-- A word in Memory is the two bytes that `ip` would meet one after the other: a word access never wraps (20_memory.md R52). -/
theorem State.wordAt_eq_bytes {s : State} (hm : s.cfg.memSize ≤ 65536) {a : Word} (h : s.wordInRange a = true) :
    s.wordAt a.toNat = wordOfBytes (s.byteAt a.toNat) (s.byteAt (a + 1).toNat) := by
  have := State.wordInRange_iff.1 h
  rw [show (a + 1).toNat = a.toNat + 1 by bv_omega]
  rfl

/-- The opcode a byte selects has that byte as its value (30_encoding.md R88). -/
theorem Opc.value_of_lookup {c : Opc} {b : Byte} {o : Op} (h : c.lookup b = some o) : c.value o = b := by
  simpa using List.find?_some h

/-- Decoding the operands of an opcode gives an instruction of that opcode. -/
theorem decodeOperands_op {σ ε : Type} {f1 : σ → Except ε (Byte × σ)} {f2 : σ → Except ε (Word × σ)} {o : Op} {t u : σ} {i : Instr}
    (h : decodeOperands f1 f2 o t = .ok (i, u)) : i.op = o := by
  cases o <;> simp only [decodeOperands, bind, Except.bind, pure, Except.pure] at h
  all_goals repeat' split at h
  all_goals cases h
  all_goals rfl

/-- The instruction with a given opcode whose operand bytes begin at `a` (30_encoding.md R82, R84 to R87). -/
def State.instrAt (s : State) (a : Word) : Op → Instr
  | .movLitReg => .movLitReg (s.wordAt a.toNat) (Reg.ofCode (s.byteAt (a + 2).toNat))
  | .movLitMem => .movLitMem (s.wordAt a.toNat) (s.wordAt (a + 2).toNat)
  | .movRegReg => .movRegReg (Reg.ofCode (s.byteAt a.toNat)) (Reg.ofCode (s.byteAt (a + 1).toNat))
  | .movRegMem => .movRegMem (Reg.ofCode (s.byteAt a.toNat)) (s.wordAt (a + 1).toNat)
  | .movMemReg => .movMemReg (s.wordAt a.toNat) (Reg.ofCode (s.byteAt (a + 2).toNat))
  | .addRegReg => .addRegReg (Reg.ofCode (s.byteAt a.toNat)) (Reg.ofCode (s.byteAt (a + 1).toNat))
  | .jneLitMem => .jneLitMem (s.wordAt a.toNat) (s.wordAt (a + 2).toNat)
  | .pshLit => .pshLit (s.wordAt a.toNat)
  | .pshReg => .pshReg (Reg.ofCode (s.byteAt a.toNat))
  | .popReg => .popReg (Reg.ofCode (s.byteAt a.toNat))
  | .callLit => .callLit (s.wordAt a.toNat)
  | .callReg => .callReg (Reg.ofCode (s.byteAt a.toNat))
  | .ret => .ret

/-- The instruction at an address does not depend on the registers. -/
@[simp] theorem State.setReg_instrAt (s : State) (r : Reg) (v a : Word) (o : Op) :
    (s.setReg r v).instrAt a o = s.instrAt a o := by cases o <;> rfl

/-- Fetching the operands of an opcode ends in the first fetch fault, or gives the instruction and moves `ip` past it. -/
theorem decodeOperands_eq (o : Op) (s : State) :
    decodeOperands fetch fetch16 o s = match s.operandFault (s.reg .ip) o.operands with
      | none => .ok (s.instrAt (s.reg .ip) o, s.setReg .ip (s.reg .ip + BitVec.ofNat 16 (o.length - 1)))
      | some f => .error f := by
  cases o
  case ret =>
    show Except.ok _ = Except.ok _
    rw [show s.reg .ip + BitVec.ofNat 16 (Op.ret.length - 1) = s.reg .ip from BitVec.add_zero _, State.setReg_reg_self]
    rfl
  all_goals
    simp only [decodeOperands, fetch16_eq, fetchRegisterIndex_eq, Op.operands, State.operandFault, bind, Except.bind, pure,
      Except.pure]
  case movLitReg | movLitMem | movMemReg | jneLitMem | pshLit | callLit =>
    cases s.wordInRange (s.reg .ip) <;> cases h1 : s.byteInRange (s.reg .ip + 2) <;>
      cases h2 : s.wordInRange (s.reg .ip + 2) <;>
      simp only [State.reg_setReg_self, State.setReg_byteInRange, State.setReg_wordInRange, State.setReg_byteAt,
        State.setReg_wordAt, State.setReg_setReg_self, BitVec.add_assoc, if_true, if_false, Bool.false_eq_true, h1, h2] <;>
      rfl
  all_goals
    cases s.byteInRange (s.reg .ip) <;> cases h1 : s.byteInRange (s.reg .ip + 1) <;>
      cases h2 : s.wordInRange (s.reg .ip + 1) <;>
      simp only [State.reg_setReg_self, State.setReg_byteInRange, State.setReg_wordInRange, State.setReg_byteAt,
        State.setReg_wordAt, State.setReg_setReg_self, BitVec.add_assoc, if_true, if_false, Bool.false_eq_true, h1, h2] <;>
      rfl

/-- The decoder of plain bytes reads the same instruction from the bytes at `ip` when they lie in Memory. -/
theorem decodeOperands_bytesFrom {s : State} (hm : s.cfg.memSize ≤ 65536) {a : Word} {o : Op}
    (h : s.operandFault a o.operands = none) :
    ∃ rest, decodeOperands takeByte takeWord o (s.bytesFrom a 4) = .ok (s.instrAt a o, rest) := by
  cases o
  all_goals
    refine ⟨_, Eq.trans rfl (congrArg (fun i => Except.ok (i, _)) ?_)⟩
  all_goals
    simp only [Op.operands, State.operandFault] at h
  all_goals repeat' split at h
  all_goals try cases h
  all_goals
    simp only [State.instrAt]
  all_goals try
    simp only [State.wordAt_eq_bytes hm, BitVec.add_assoc, *]
  all_goals rfl

/-- The bytes at an address do not depend on the registers. -/
@[simp] theorem State.setReg_bytesFrom (s : State) (r : Reg) (v a : Word) (n : Nat) :
    (s.setReg r v).bytesFrom a n = s.bytesFrom a n := by
  induction n generalizing a with
  | zero => rfl
  | succ n ih => simp [State.bytesFrom, ih]

/-- Where an operand fetch leaves Memory does not depend on the registers. -/
@[simp] theorem State.setReg_operandFault (s : State) (r : Reg) (v a : Word) (ks : List OperandKind) :
    (s.setReg r v).operandFault a ks = s.operandFault a ks := by
  induction ks generalizing a with
  | nil => rfl
  | cons k ks ih => cases k <;> simp [State.operandFault, ih]

/-- The opcode byte outside Memory: the step's first fetch faults (R110, 60_exceptions.md R217). -/
theorem fetchInstr_opcode_fault {s : State} (h : s.byteInRange (s.reg .ip) = false) :
    fetchInstr s = .error (.memOutOfRange .fetch (s.reg .ip) 1) := by
  rw [fetchInstr, decodeFrom, fetch_eq, h]
  rfl

/-- An opcode byte outside the closed set: nothing more is fetched (30_encoding.md R91). -/
theorem fetchInstr_illegal {s : State} (h : s.byteInRange (s.reg .ip) = true)
    (hl : s.cfg.opc.lookup (s.byteAt (s.reg .ip).toNat) = none) :
    fetchInstr s = .ok (.illegal (s.byteAt (s.reg .ip).toNat) (s.setReg .ip (s.reg .ip + 1))) := by
  rw [fetchInstr, decodeFrom, fetch_eq, h]
  simp [bind, Except.bind, pure, Except.pure, hl]

/-- An opcode byte of the closed set: the operands are fetched from the byte after it. -/
theorem fetchInstr_legal {s : State} (h : s.byteInRange (s.reg .ip) = true) {o : Op}
    (hl : s.cfg.opc.lookup (s.byteAt (s.reg .ip).toNat) = some o) :
    fetchInstr s = (decodeOperands fetch fetch16 o (s.setReg .ip (s.reg .ip + 1)) >>= fun p => .ok (.instr p.1 p.2)) := by
  rw [fetchInstr, decodeFrom, fetch_eq, h]
  simp only [if_true, bind, Except.bind, pure, Except.pure, hl]

/-- The decoder of plain bytes, by the opcode its first byte selects. -/
theorem decode_cons (c : Opc) (b : Byte) (bs : List Byte) :
    decode c (b :: bs) = match c.lookup b with
      | none => .error (.illegalOpcode b)
      | some o => decodeOperands takeByte takeWord o bs := by
  simp only [decode, decodeFrom, takeByte, bind, Except.bind, pure, Except.pure]
  cases c.lookup b with
  | none => rfl
  | some o =>
    simp only
    cases decodeOperands takeByte takeWord o bs <;> rfl

end Sys2Proof.Machine
end

