-- ==== Sys2Proof/Laws/Decode.lean ====
section
/-! SUPPORT. Small lemmas of the register codes, the opcode map and the byte-list decoder. -/

namespace Sys2Proof

/-- A code byte names the register at its remainder modulo 12 (spec/30_encoding.md R86, R92). -/
theorem Reg.position_ofPosition {n : Nat} (h : n < 12) : (Reg.ofPosition n).position = n := by
  match n with
  | 0 | 1 | 2 | 3 | 4 | 5 | 6 | 7 | 8 | 9 | 10 | 11 => rfl
  | n + 12 => omega

/-- Positions name registers one to one (10_state.md R20). -/
theorem Reg.ofPosition_position (r : Reg) : Reg.ofPosition r.position = r := by cases r <;> rfl

/-- The canonical code of a register names it. -/
theorem Reg.ofCode_code (r : Reg) : Reg.ofCode r.code = r := by cases r <;> rfl

/-- The canonical code of the register a code byte names. -/
theorem Reg.code_ofCode (b : Byte) : (Reg.ofCode b).code = BitVec.ofNat 8 (b.toNat % 12) := by
  rw [Reg.code, Reg.ofCode, Reg.position_ofPosition (Nat.mod_lt _ (by decide))]

/-- The thirteen values in the order of the closed set. -/
theorem Opc.values_eq_map (c : Opc) : c.values = Op.all.map c.value := rfl

/-- Every opcode is in the list of all opcodes. -/
theorem Op.mem_all (o : Op) : o ∈ Op.all := by cases o <;> decide

/-- Under a map with distinct values, an opcode's value selects that opcode (R89). -/
theorem Opc.lookup_value {c : Opc} (h : c.Distinct) (o : Op) : c.lookup (c.value o) = some o := by
  rw [Opc.Distinct, Opc.values_eq_map] at h
  have hinj : ∀ p ∈ Op.all, c.value p = c.value o → p = o := fun p hp e =>
    List.inj_on_of_nodup_map h hp o.mem_all e
  cases hf : c.lookup (c.value o) with
  | none =>
    have := List.find?_eq_none.1 hf o o.mem_all
    simp at this
  | some p =>
    rw [hinj p (List.mem_of_find?_eq_some hf) (by simpa using List.find?_some hf)]

theorem takeWord_wordBytes (v : Word) (bs : List Byte) : takeWord (wordBytes v ++ bs) = .ok (v, bs) := by
  show Except.ok (wordOfBytes (highByte v) (lowByte v), bs) = _
  rw [wordOfBytes_high_low]

theorem takeReg_code (r : Reg) (bs : List Byte) : fetchReg takeByte (r.code :: bs) = .ok (r, bs) := by
  show Except.ok (Reg.ofCode r.code, bs) = _
  rw [Reg.ofCode_code]

end Sys2Proof
end

