-- ==== Sys2Proof/Laws/Exec.lean ====
section
/-! SUPPORT. What each instruction can do, one lemma per instruction: the fault or the next state of `exec`, in the states named in
Laws/Ops.lean and Laws/CallRet.lean. Later proofs cite these and do not unfold a meaning. -/

namespace Sys2Proof.Machine

theorem exec_movLitReg (lit : Word) (d : Reg) (s : State) :
    exec (.movLitReg lit d) s = .next ((s.setReg d lit).answer .continues) := rfl

theorem exec_movRegReg (src d : Reg) (s : State) :
    exec (.movRegReg src d) s = .next ((s.setReg d (s.reg src)).answer .continues) := rfl

theorem exec_addRegReg (a b : Reg) (s : State) :
    exec (.addRegReg a b) s = .next ((s.setReg .acc (s.reg a + s.reg b)).answer .continues) := rfl

theorem exec_jneLitMem (lit addr : Word) (s : State) :
    exec (.jneLitMem lit addr) s =
      .next ((if lit = s.reg .acc then s else s.setReg .ip addr).answer .continues) := by
  show Host.Outcome.next _ = _
  by_cases h : lit = s.reg .acc <;> simp [wordsDiffer, h]

/-- The state after a word store that does not fault (spec/20_memory.md R54). -/
def stored (a v : Word) (s : State) : State := s.setMem (Memory.writeWord s.mem a.toNat v)

theorem exec_movLitMem (lit addr : Word) (s : State) :
    exec (.movLitMem lit addr) s =
      if s.wordInRange addr then .next ((stored addr lit s).answer .continues)
      else .fault (.memOutOfRange .write addr 2) := by
  show finish (memWrite2 addr lit s) = _
  cases h : s.wordInRange addr
  · rw [memWrite2_error h]
    rfl
  · rw [memWrite2_ok h]
    rfl

theorem exec_movRegMem (src : Reg) (addr : Word) (s : State) :
    exec (.movRegMem src addr) s =
      if s.wordInRange addr then .next ((stored addr (s.reg src) s).answer .continues)
      else .fault (.memOutOfRange .write addr 2) :=
  exec_movLitMem (s.reg src) addr s

theorem exec_movMemReg (addr : Word) (d : Reg) (s : State) :
    exec (.movMemReg addr d) s =
      if s.wordInRange addr then .next ((s.setReg d (s.wordAt addr.toNat)).answer .continues)
      else .fault (.memOutOfRange .read addr 2) := by
  show finish (memRead2 .read addr s >>= fun v => pure (s.setReg d v)) = _
  cases h : s.wordInRange addr
  · rw [memRead2_error h]
    rfl
  · rw [memRead2_ok h]
    rfl

theorem exec_pshLit (lit : Word) (s : State) :
    exec (.pshLit lit) s =
      if s.wordInRange (s.reg .sp) then .next ((pushed lit s).answer .continues)
      else .fault (.memOutOfRange .write (s.reg .sp) 2) := by
  show finish (push lit s) = _
  cases h : s.wordInRange (s.reg .sp)
  · rw [push_error h]
    rfl
  · rw [push_ok h]
    rfl

theorem exec_pshReg (r : Reg) (s : State) :
    exec (.pshReg r) s =
      if s.wordInRange (s.reg .sp) then .next ((pushed (s.reg r) s).answer .continues)
      else .fault (.memOutOfRange .write (s.reg .sp) 2) :=
  exec_pshLit (s.reg r) s

theorem exec_popReg (r : Reg) (s : State) :
    exec (.popReg r) s =
      if s.wordInRange (s.reg .sp + 2) then
        .next (((popped s).setReg r (s.wordAt (s.reg .sp + 2).toNat)).answer .continues)
      else .fault (.memOutOfRange .read (s.reg .sp + 2) 2) := by
  show finish (popInto r s) = _
  cases h : s.wordInRange (s.reg .sp + 2)
  · rw [popInto_error h]
    rfl
  · rw [popInto_ok h]
    rfl

theorem exec_callLit (addr : Word) (s : State) :
    exec (.callLit addr) s = match s.pushFault (s.reg .sp) 10 with
      | none => .next (((calledState s).setReg .ip addr).answer .continues)
      | some f => .fault f := by
  show finish (call addr s) = _
  rw [call_eq]
  cases s.pushFault (s.reg .sp) 10 <;> rfl

theorem exec_callReg (r : Reg) (s : State) :
    exec (.callReg r) s = match s.pushFault (s.reg .sp) 10 with
      | none => .next (((calledState s).setReg .ip (s.reg r)).answer .continues)
      | some f => .fault f :=
  exec_callLit (s.reg r) s

theorem exec_ret (s : State) :
    exec .ret s = match s.popFault (s.reg .fp) (11 + (argCount s).toNat) with
      | none => .next ((returnedState s).answer .continues)
      | some f => .fault f := by
  show finish (popState s) = _
  rw [popState_eq]
  cases s.popFault (s.reg .fp) (11 + (argCount s).toNat) <;> rfl

/-! ### The fields of the states named above -/

section Fields

variable (s : State)

@[simp] theorem stored_reg (a v : Word) (r : Reg) : (stored a v s).reg r = s.reg r := by simp [stored]
@[simp] theorem stored_fsz (a v : Word) : (stored a v s).fsz = s.fsz := rfl
@[simp] theorem stored_cfg (a v : Word) : (stored a v s).cfg = s.cfg := rfl
@[simp] theorem stored_mem (a v : Word) : (stored a v s).mem = Memory.writeWord s.mem a.toNat v := rfl

theorem calledState_sp : (calledState s).reg .sp = s.reg .sp - 20 := by
  rw [calledState, State.setFsz_reg, State.reg_setReg_ne _ _ _ _ (by decide), pushedAll_sp, frameWords_length]
  rfl

theorem calledState_fp : (calledState s).reg .fp = s.reg .sp - 20 := by simp [calledState]

theorem calledState_reg {r : Reg} (h1 : r ≠ .sp) (h2 : r ≠ .fp) : (calledState s).reg r = s.reg r := by
  rw [calledState, State.setFsz_reg, State.reg_setReg_ne _ _ _ _ h2, pushedAll_reg h1]

@[simp] theorem calledState_fsz : (calledState s).fsz = 0 := rfl

@[simp] theorem calledState_mem : (calledState s).mem = (pushedAll (frameWords s) s).mem := by
  simp [calledState]

@[simp] theorem calledState_cfg : (calledState s).cfg = s.cfg := by simp [calledState]

theorem returnedState_sp :
    (returnedState s).reg .sp = s.reg .fp + 22 + BitVec.ofNat 16 (2 * (argCount s).toNat) := by
  rw [returnedState, State.setFsz_reg, State.reg_setReg_ne _ _ _ _ (by decide), discarded, State.setFsz_reg,
    State.reg_setReg_self, popped_sp, restoredState_sp]
  congr 1
  bv_omega

theorem returnedState_fp : (returnedState s).reg .fp = s.reg .fp + s.wordAt (s.reg .fp + 2).toNat := by
  simp only [returnedState, State.setFsz_reg, State.reg_setReg_self]

theorem returnedState_reg {r : Reg} (h1 : r ≠ .sp) (h2 : r ≠ .fp) :
    (returnedState s).reg r = (restoredState s).reg r := by
  simp [returnedState, discarded, h1, h2]

theorem returnedState_acc : (returnedState s).reg .acc = s.reg .acc := by
  rw [returnedState_reg s (by decide) (by decide), restoredState, poppedRegs_reg_of_not_mem (by decide) (by decide),
    popped_reg (by decide), State.reg_setReg_ne _ _ _ _ (by decide)]

/-- The register RET pops `k`-th after the frame size holds the word `4 + 2k` above `fp`. -/
theorem returnedState_popped {k : Nat} (hk : k < returnRegs.length) :
    (returnedState s).reg returnRegs[k] = s.wordAt (s.reg .fp + BitVec.ofNat 16 (2 * (k + 2))).toNat := by
  have h1 : ∀ k (hk : k < returnRegs.length), returnRegs[k] ≠ .sp ∧ returnRegs[k] ≠ .fp := by decide
  rw [returnedState_reg s (h1 k hk).1 (h1 k hk).2, restoredState, poppedRegs_reg (by decide) (by decide) _ hk,
    popped_wordAt, State.setReg_wordAt, popped_sp, State.reg_setReg_self, word_add_step]

@[simp] theorem returnedState_fsz : (returnedState s).fsz = 0 := rfl

@[simp] theorem returnedState_mem : (returnedState s).mem = s.mem := by
  simp [returnedState, discarded, restoredState]

@[simp] theorem returnedState_cfg : (returnedState s).cfg = s.cfg := by
  simp [returnedState, discarded, restoredState]

end Fields

/-! ### The canonical form is kept -/

theorem pushed_wf {size : Nat} {v : Word} {s : State} (hs : s.cfg.memSize = size) (h : Memory.wf size s.mem)
    (hr : s.wordInRange (s.reg .sp) = true) : Memory.wf size (pushed v s).mem := by
  subst hs
  exact Memory.writeWord_wf h (State.wordInRange_iff.1 hr) v

theorem pushedAll_wf {vs : List Word} {s : State} (h : Memory.wf s.cfg.memSize s.mem)
    (hr : s.pushFault (s.reg .sp) vs.length = none) : Memory.wf s.cfg.memSize (pushedAll vs s).mem := by
  induction vs generalizing s with
  | nil => exact h
  | cons v vs ih =>
    rw [List.length_cons, State.pushFault] at hr
    split at hr
    · rename_i hw
      exact ih (s := pushed v s) (pushed_wf rfl h hw) (by rwa [pushed_sp, pushed_pushFault])
    · cases hr

theorem stored_wf {a v : Word} {s : State} (h : Memory.wf s.cfg.memSize s.mem) (hr : s.wordInRange a = true) :
    Memory.wf s.cfg.memSize (stored a v s).mem :=
  Memory.writeWord_wf h (State.wordInRange_iff.1 hr) v

/-! ### The next state, whatever the instruction -/

/-- The next state of an instruction that answers one: the inversion of the lemmas above, for proofs about every instruction. -/
theorem exec_next {i : Instr} {s t : State} (h : exec i s = .next t) :
    match i with
    | .movLitReg lit d => t = (s.setReg d lit).answer .continues
    | .movRegReg src d => t = (s.setReg d (s.reg src)).answer .continues
    | .movLitMem lit a => t = (stored a lit s).answer .continues
    | .movRegMem src a => t = (stored a (s.reg src) s).answer .continues
    | .movMemReg a d => t = (s.setReg d (s.wordAt a.toNat)).answer .continues
    | .addRegReg a b => t = (s.setReg .acc (s.reg a + s.reg b)).answer .continues
    | .jneLitMem lit a => t = (if lit = s.reg .acc then s else s.setReg .ip a).answer .continues
    | .pshLit v => t = (pushed v s).answer .continues
    | .pshReg r => t = (pushed (s.reg r) s).answer .continues
    | .popReg r => t = ((popped s).setReg r (s.wordAt (s.reg .sp + 2).toNat)).answer .continues
    | .callLit a => t = ((calledState s).setReg .ip a).answer .continues
    | .callReg r => t = ((calledState s).setReg .ip (s.reg r)).answer .continues
    | .ret => t = (returnedState s).answer .continues := by
  cases i with
  | movLitReg lit d => cases h; rfl
  | movRegReg lit d => cases h; rfl
  | addRegReg lit d => cases h; rfl
  | jneLitMem lit d => rw [exec_jneLitMem] at h; cases h; rfl
  | movLitMem lit d => rw [exec_movLitMem] at h; split at h <;> cases h; rfl
  | movRegMem lit d => rw [exec_movRegMem] at h; split at h <;> cases h; rfl
  | movMemReg lit d => rw [exec_movMemReg] at h; split at h <;> cases h; rfl
  | pshLit d => rw [exec_pshLit] at h; split at h <;> cases h; rfl
  | pshReg d => rw [exec_pshReg] at h; split at h <;> cases h; rfl
  | popReg d => rw [exec_popReg] at h; split at h <;> cases h; rfl
  | callLit d => rw [exec_callLit] at h; split at h <;> cases h; rfl
  | callReg d => rw [exec_callReg] at h; split at h <;> cases h; rfl
  | ret => rw [exec_ret] at h; split at h <;> cases h; rfl

/-- The `k`-th word of the frame that CALL leaves, at the depth of the `k`-th push (spec/45_call_ret.md R180, R182). -/
theorem calledState_wordAt (s : State) {k : Nat} (hk : k < 10) :
    (calledState s).wordAt (pushAddr (s.reg .sp) k).toNat = (frameWords s)[k]'hk := by
  rw [State.wordAt, calledState_mem]
  exact pushedAll_wordAt (frameWords s) s (by rw [frameWords_length]; decide) (k := k) hk

end Sys2Proof.Machine
end

