-- ==== Sys2Proof/Laws/PerInstr.lean ====
section
/-! SUPPORT. The families of statements about an instruction as syntax, one lemma per constructor of Instr. -/

/-- The encoder writes exactly as many bytes as the instruction's format says (spec/30_encoding.md R82, R102). -/
def Sys2Proof.Laws.EncodeLength.Statement (i : Sys2Proof.Instr) : Prop :=
  ∀ c : Sys2Proof.Opc, (Sys2Proof.encode c i).length = i.length

namespace Sys2Proof.Laws.EncodeLength

theorem movLitReg (lit : Word) (d : Reg) : Statement (.movLitReg lit d) := fun _ => rfl
theorem movLitMem (lit addr : Word) : Statement (.movLitMem lit addr) := fun _ => rfl
theorem movRegReg (src d : Reg) : Statement (.movRegReg src d) := fun _ => rfl
theorem movRegMem (src : Reg) (addr : Word) : Statement (.movRegMem src addr) := fun _ => rfl
theorem movMemReg (addr : Word) (d : Reg) : Statement (.movMemReg addr d) := fun _ => rfl
theorem addRegReg (a b : Reg) : Statement (.addRegReg a b) := fun _ => rfl
theorem jneLitMem (lit addr : Word) : Statement (.jneLitMem lit addr) := fun _ => rfl
theorem pshLit (lit : Word) : Statement (.pshLit lit) := fun _ => rfl
theorem pshReg (r : Reg) : Statement (.pshReg r) := fun _ => rfl
theorem popReg (r : Reg) : Statement (.popReg r) := fun _ => rfl
theorem callLit (addr : Word) : Statement (.callLit addr) := fun _ => rfl
theorem callReg (r : Reg) : Statement (.callReg r) := fun _ => rfl
theorem ret : Statement .ret := fun _ => rfl

end Sys2Proof.Laws.EncodeLength
end

