-- ==== Sys2Proof/Laws/Step.lean ====
section
/-! SUPPORT. Everything a step can do, said once (spec/40_fetch_decode.md R113, R114, R116). -/

namespace Sys2Proof.Machine

theorem Op.one_add_operands (o : Op) (a : Word) :
    a + 1 + BitVec.ofNat 16 (o.length - 1) = a + BitVec.ofNat 16 o.length := by
  rw [BitVec.add_assoc]
  cases o <;> rfl

/-- A step faults on its opcode fetch, halts on an illegal opcode byte, faults on an operand fetch, or runs the instruction with `ip` past it. -/
theorem step_eq (s : State) :
    step s =
      if s.byteInRange (s.reg .ip) then
        match s.cfg.opc.lookup (s.byteAt (s.reg .ip).toNat) with
        | none => .next (s.setReg .ip (s.reg .ip + 1)).halt
        | some o =>
          match s.operandFault (s.reg .ip + 1) o.operands with
          | none => exec (s.instrAt (s.reg .ip + 1) o) (s.setReg .ip (s.reg .ip + BitVec.ofNat 16 o.length))
          | some f => .fault f
      else .fault (.memOutOfRange .fetch (s.reg .ip) 1) := by
  rw [step]
  cases h : s.byteInRange (s.reg .ip)
  · rw [fetchInstr_opcode_fault h]
    rfl
  · rw [if_pos rfl]
    cases hl : s.cfg.opc.lookup (s.byteAt (s.reg .ip).toNat) with
    | none => rw [fetchInstr_illegal h hl]
    | some o =>
      rw [fetchInstr_legal h hl, decodeOperands_eq, State.reg_setReg_self, State.setReg_operandFault,
        State.setReg_setReg_self, Op.one_add_operands, State.setReg_instrAt]
      cases hf : s.operandFault (s.reg .ip + 1) o.operands <;> simp only [hf, bind, Except.bind]

/-- A next state comes from a halt or from an instruction. -/
theorem step_next {s t : State} (h : step s = .next t) :
    (s.cfg.opc.lookup (s.byteAt (s.reg .ip).toNat) = none ∧ t = (s.setReg .ip (s.reg .ip + 1)).halt) ∨
    ∃ o, s.cfg.opc.lookup (s.byteAt (s.reg .ip).toNat) = some o ∧
      exec (s.instrAt (s.reg .ip + 1) o) (s.setReg .ip (s.reg .ip + BitVec.ofNat 16 o.length)) = .next t := by
  rw [step_eq] at h
  split at h
  · split at h
    · rename_i hl
      cases h
      exact .inl ⟨hl, rfl⟩
    · rename_i o hl
      split at h
      · exact .inr ⟨o, hl, h⟩
      · cases h
  · cases h

/-- An operand fetch fault is a fetch of 1 or 2 bytes that leaves Memory. -/
theorem State.operandFault_out {s : State} {a : Word} {ks : List OperandKind} {f : Fault} (h : s.operandFault a ks = some f) :
    ∃ b n, f = .memOutOfRange .fetch b n ∧
      ((n = 1 ∧ s.byteInRange b = false) ∨ (n = 2 ∧ s.wordInRange b = false)) := by
  induction ks generalizing a with
  | nil => cases h
  | cons k ks ih =>
    cases k <;> simp only [State.operandFault] at h <;> split at h
    · exact ih h
    · rename_i hw
      cases h
      exact ⟨a, 2, rfl, .inr ⟨rfl, by simpa using hw⟩⟩
    · exact ih h
    · rename_i hw
      cases h
      exact ⟨a, 2, rfl, .inr ⟨rfl, by simpa using hw⟩⟩
    · exact ih h
    · rename_i hw
      cases h
      exact ⟨a, 1, rfl, .inl ⟨rfl, by simpa using hw⟩⟩

/-- The fault of a run of pushes is a word write that leaves Memory. -/
theorem State.pushFault_out {s : State} {a : Word} {n : Nat} {f : Fault} (h : s.pushFault a n = some f) :
    ∃ b, f = .memOutOfRange .write b 2 ∧ s.wordInRange b = false := by
  induction n generalizing a with
  | zero => cases h
  | succ n ih =>
    rw [State.pushFault] at h
    split at h
    · exact ih h
    · rename_i hw
      cases h
      exact ⟨a, rfl, by simpa using hw⟩

/-- The fault of a run of pops is a word read that leaves Memory. -/
theorem State.popFault_out {s : State} {a : Word} {n : Nat} {f : Fault} (h : s.popFault a n = some f) :
    ∃ b, f = .memOutOfRange .read b 2 ∧ s.wordInRange b = false := by
  induction n generalizing a with
  | zero => cases h
  | succ n ih =>
    rw [State.popFault] at h
    split at h
    · exact ih h
    · rename_i hw
      cases h
      exact ⟨a + 2, rfl, eq_false_of_ne_true hw⟩

/-! ### Bytes placed at the fetch point -/

/-- Placing bytes changes Memory alone and keeps its canonical form. -/
theorem placeBytes_frame (bs : List Byte) (a : Word) (s : State) :
    (placeBytes bs a s).regs = s.regs ∧ (placeBytes bs a s).fsz = s.fsz ∧ (placeBytes bs a s).cfg = s.cfg ∧
      (placeBytes bs a s).lastStatus = s.lastStatus ∧
      (Memory.wf s.cfg.memSize s.mem → Memory.wf s.cfg.memSize (placeBytes bs a s).mem) := by
  induction bs generalizing a s with
  | nil => exact ⟨rfl, rfl, rfl, rfl, id⟩
  | cons b bs ih =>
    rw [placeBytes]
    split
    · rename_i h
      obtain ⟨h1, h2, h3, h4, h5⟩ := ih (a + 1) (s.setMem (Memory.write s.mem a.toNat b))
      exact ⟨h1, h2, h3, h4, fun hw => h5 (Memory.write_wf hw (State.byteInRange_iff.1 h) b)⟩
    · exact ih (a + 1) s

end Sys2Proof.Machine
end

