-- ==== Sys2Proof/Tests/Slice0.lean ====
section
/-! SUPPORT. Tests of the model. Expected values come from the spec: the byte listings of spec/30_encoding.md and the vectors of
spec/95_test_vectors.md, named by their ids; the opcode bytes are the spec's defaults. The last part gives, for every statement with
hypotheses, states and operands that meet them. -/

namespace Sys2Proof.Tests

open Sys2Proof Sys2Proof.Machine

/-! ### Helpers -/

/-- A machine with `size` bytes of Memory after reset, with some registers, `fsz` and some runs of bytes replaced. -/
def prepared (size : Nat) (rs : List (Reg × Word)) (fsz : Word) (bs : List (Nat × List Byte)) : State :=
  let s := (State.resetWith { Config.default with memSize := size }).setFsz fsz
  (rs.foldl (fun s p => s.setReg p.1 p.2) s).setMem (bs.foldl (fun m p => Memory.writeBytes m p.1 p.2) [])

/-- What `f` shows of the next state, none when there is none. -/
def seen {α : Type} (f : State → α) : Host.Outcome State Fault Refusal → Option α
  | .next t => some (f t)
  | .fault _ => none
  | .refused _ => none

/-- The fault of an outcome. -/
def faultOf : Host.Outcome State Fault Refusal → Option Fault
  | .next _ => none
  | .fault f => some f
  | .refused _ => none

/-- Some registers of a state. -/
def regsOf (rs : List Reg) (s : State) : List Word := rs.map s.reg

/-! ### Well-formedness: an ill-formed term for each check, which the check refuses -/

theorem test_wf_default : Config.default.wf := by decide
theorem test_wf_least : ({ Config.default with memSize := 2 } : Config).wf := by decide
theorem test_wf_refuses_equal_opcodes : ¬ ({ Opc.default with ret := 0x10 } : Opc).Distinct := by decide
theorem test_wf_refuses_opcode_zero : ¬ ({ Opc.default with callReg := 0x00 } : Opc).NonZero := by decide
theorem test_wf_refuses_opcode_map : ¬ ({ Opc.default with callReg := 0x00 } : Opc).wf := by decide
theorem test_wf_refuses_offset_one : ¬ ({ Config.default with spInitOffset := 1 } : Config).OffsetAtLeastTwo := by decide
theorem test_wf_refuses_offset_past_memory : ¬ ({ Config.default with memSize := 4, spInitOffset := 5 } : Config).OffsetInMemory := by
  decide
theorem test_wf_refuses_large_memory : ¬ ({ Config.default with memSize := 65537 } : Config).MemoryAddressable := by decide
theorem test_wf_refuses_config : ¬ ({ Config.default with memSize := 65537 } : Config).wf := by decide
theorem test_wf_refuses_long_image :
    ¬ ({ Config.default with memSize := 4 } : Config).Loadable [0x10, 0x00, 0x01, 0x02, 0x1C] := by decide
theorem test_wf_refuses_code_12 : ¬ canonicalCode 0x0C := by decide
theorem test_wf_refuses_unsorted_memory : ¬ Memory.wf 65536 [(2, 1), (1, 1)] := by decide
theorem test_wf_refuses_listed_blank : ¬ Memory.wf 65536 [(2, 0)] := by decide
theorem test_wf_refuses_cell_outside : ¬ Memory.wf 256 [(256, 1)] := by decide

/-! ### Decoding: every constructor, from bytes written out bit by bit (opcode_table.json's encodings) -/

theorem test_decode_movLitReg :
    decode Opc.default [0b00010000, 0b00010010, 0b00110100, 0b00000010] = .ok (.movLitReg 0x1234 .r1, []) := rfl
theorem test_decode_movLitMem :
    decode Opc.default [0b00010001, 0b10111110, 0b11101111, 0b00000010, 0b00000001] = .ok (.movLitMem 0xBEEF 0x0201, []) := rfl
theorem test_decode_movRegReg : decode Opc.default [0b00010010, 0b00000000, 0b00001010] = .ok (.movRegReg .ip .sp, []) := rfl
theorem test_decode_movRegMem :
    decode Opc.default [0b00010011, 0b00001011, 0b00000001, 0b00000010] = .ok (.movRegMem .fp 0x0102, []) := rfl
theorem test_decode_movMemReg :
    decode Opc.default [0b00010100, 0b00000001, 0b00000010, 0b00001001] = .ok (.movMemReg 0x0102 .r8, []) := rfl
theorem test_decode_addRegReg : decode Opc.default [0b00010101, 0b00001110, 0b11111111] = .ok (.addRegReg .r1 .r2, []) := rfl
theorem test_decode_jneLitMem :
    decode Opc.default [0b00010110, 0b00010010, 0b00110100, 0b11111111, 0b11111110] = .ok (.jneLitMem 0x1234 0xFFFE, []) := rfl
theorem test_decode_pshLit : decode Opc.default [0b00010111, 0b10000000, 0b01000010] = .ok (.pshLit 0x8042, []) := rfl
theorem test_decode_pshReg : decode Opc.default [0b00011000, 0b00000001] = .ok (.pshReg .acc, []) := rfl
theorem test_decode_popReg : decode Opc.default [0b00011001, 0b00001000] = .ok (.popReg .r7, []) := rfl
theorem test_decode_callLit : decode Opc.default [0b00011010, 0b00000000, 0b00100000] = .ok (.callLit 0x0020, []) := rfl
theorem test_decode_callReg : decode Opc.default [0b00011011, 0b00000100] = .ok (.callReg .r3, []) := rfl
theorem test_decode_ret : decode Opc.default [0b00011100] = .ok (.ret, []) := rfl

/-- DEC1 to DEC3: bytes on both sides of the closed set. -/
theorem test_decode_illegal : decode Opc.default [0x00] = .error (.illegalOpcode 0x00) ∧
    decode Opc.default [0x0F] = .error (.illegalOpcode 0x0F) ∧ decode Opc.default [0x1D] = .error (.illegalOpcode 0x1D) :=
  ⟨rfl, rfl, rfl⟩
theorem test_decode_truncated : decode Opc.default [0x10, 0x12] = .error .truncated := rfl
/-- The table's numbering: bit 0 is the least significant bit of the first byte. -/
theorem test_decode_table_word : decodeTableWord 32 0x02341210 = some (.movLitReg 0x1234 .r1) := by decide
/-- A word shorter than its instruction stands for operand bytes of zero. -/
theorem test_decode_table_short : decodeTableWord 8 0x10 = some (.movLitReg 0x0000 .ip) := by decide
theorem test_decode_table_illegal : decodeTableWord 8 0x1D = none := by decide

/-- R88 under another admitted map: the decoder follows the map it is given. -/
theorem test_decode_other_map :
    decode { Opc.default with ret := 0x01, pshReg := 0x1C } [0x1C, 0x0B] = .ok (.pshReg .fp, []) := rfl

/-! ### One step -/

/-- DEC4: the two bytes after an illegal opcode are not fetched. -/
theorem test_halt_dec4 : seen (fun t => (t.reg .ip, t.lastStatus)) (step (prepared 65536 [] 0 [(0, [0xFF, 0xFF, 0xFF])])) =
    some (0x0001, some .halts) := by decide
/-- DEC5: `ip` wraps. -/
theorem test_halt_dec5 : seen (fun t => (t.reg .ip, t.lastStatus)) (step (prepared 65536 [(.ip, 0xFFFF)] 0 [])) =
    some (0x0000, some .halts) := by decide
/-- DEC11: a word fetch at the last byte of Memory. -/
theorem test_fetch_dec11 : faultOf (step (prepared 65536 [(.ip, 0xFFFE)] 0 [(0xFFFE, [0x17, 0x12])])) =
    some (.memOutOfRange .fetch 0xFFFF 2) := by decide
/-- DEC12: register code 0x13 names `r6`. -/
theorem test_movLitReg_dec12 : seen (regsOf [.r6, .ip])
    (step (prepared 65536 [] 0 [(0, [0x10, 0x01, 0x02, 0x13])])) = some [0x0102, 0x0004] := by decide
/-- MOV2: the written `ip` wins over the advance. -/
theorem test_movLitReg_mov2 : seen (regsOf [.ip, .acc]) (step (prepared 65536 [] 0 [(0, [0x10, 0x00, 0x40, 0x00])])) =
    some [0x0040, 0x0000] := by decide
/-- MOV5: an odd address. -/
theorem test_movLitMem_mov5 : seen (fun t => (t.byteAt 0x0201, t.byteAt 0x0202, t.reg .ip))
    (step (prepared 65536 [] 0 [(0, [0x11, 0xBE, 0xEF, 0x02, 0x01])])) = some (0xBE, 0xEF, 0x0005) := by decide
/-- MOV20: 256 bytes of Memory. -/
theorem test_movLitMem_mov20 : faultOf (step (prepared 256 [] 0 [(0, [0x11, 0x00, 0x01, 0x00, 0xFF])])) =
    some (.memOutOfRange .write 0x00FF 2) := by decide
/-- MOV9: `ip` as a source is the next instruction's address. -/
theorem test_movRegReg_mov9 : seen (regsOf [.r1, .ip]) (step (prepared 65536 [(.ip, 0x0010)] 0 [(0x10, [0x12, 0x00, 0x02])])) =
    some [0x0013, 0x0013] := by decide
/-- MOV8. -/
theorem test_movRegReg_mov8 : seen (regsOf [.r1, .r2, .ip])
    (step (prepared 65536 [(.ip, 0x0010), (.r1, 0x1234)] 0 [(0x10, [0x12, 0x02, 0x03])])) =
    some [0x1234, 0x1234, 0x0013] := by decide
/-- MOV12. -/
theorem test_movRegMem_mov12 : seen (fun t => (t.byteAt 0x0100, t.byteAt 0x0101))
    (step (prepared 65536 [(.acc, 0x2229)] 0 [(0, [0x13, 0x01, 0x01, 0x00])])) = some (0x22, 0x29) := by decide
/-- MOV16: the instruction reads its own bytes. -/
theorem test_movMemReg_mov16 : seen (regsOf [.r1, .ip]) (step (prepared 65536 [] 0 [(0, [0x14, 0x00, 0x00, 0x02])])) =
    some [0x1400, 0x0004] := by decide
/-- MOV18. -/
theorem test_movMemReg_mov18 : faultOf (step (prepared 65536 [] 0 [(0, [0x14, 0xFF, 0xFF, 0x02])])) =
    some (.memOutOfRange .read 0xFFFF 2) := by decide
/-- ADD2: the sum wraps. -/
theorem test_addRegReg_add2 : seen (regsOf [.acc, .r1, .r2])
    (step (prepared 65536 [(.r1, 0xFFFF), (.r2, 0x0001)] 0 [(0, [0x15, 0x02, 0x03])])) =
    some [0x0000, 0xFFFF, 0x0001] := by decide
/-- ADD8: `ip` as a source. -/
theorem test_addRegReg_add8 : seen (regsOf [.acc, .ip])
    (step (prepared 65536 [(.ip, 0x0006), (.r1, 0x0001)] 0 [(6, [0x15, 0x00, 0x02])])) = some [0x000A, 0x0009] := by decide
/-- JNE2: equal. -/
theorem test_jneLitMem_jne2 : seen (regsOf [.ip])
    (step (prepared 65536 [(.ip, 0x0040), (.acc, 0x0005)] 0 [(0x40, [0x16, 0x00, 0x05, 0x00, 0x00])])) = some [0x0045] := by
  decide
/-- JNE3: the high byte is compared too. -/
theorem test_jneLitMem_jne3 : seen (regsOf [.ip])
    (step (prepared 65536 [(.ip, 0x0040), (.acc, 0x0105)] 0 [(0x40, [0x16, 0x00, 0x05, 0x00, 0x00])])) = some [0x0000] := by
  decide
/-- DEC10: the instruction ends at the last byte of Memory and `ip` wraps; the push lands on its operand. -/
theorem test_pshLit_dec10 : seen (fun t => (t.reg .ip, t.reg .sp, t.fsz, t.wordAt 0xFFFE))
    (step (prepared 65536 [(.ip, 0xFFFD)] 0 [(0xFFFD, [0x17, 0x12, 0x34])])) =
    some (0x0000, 0xFFFC, 0x0002, 0x1234) := by decide
/-- STK13: `fsz` wraps. -/
theorem test_pshLit_stk13 : seen (fun t => (t.fsz, t.reg .sp, t.wordAt 0x0100))
    (step (prepared 65536 [(.sp, 0x0100)] 0xFFFE [(0, [0x17, 0x00, 0x01])])) = some (0x0000, 0x00FE, 0x0001) := by decide
/-- STK3: the old `sp` is pushed. -/
theorem test_pshReg_stk3 : seen (fun t => (t.wordAt 0xFFFE, t.reg .sp, t.fsz))
    (step (prepared 65536 [] 0 [(0, [0x18, 0x0A])])) = some (0xFFFE, 0xFFFC, 0x0002) := by decide
/-- STK4: `ip` pushed is the next instruction's address. -/
theorem test_pshReg_stk4 : seen (fun t => (t.wordAt 0xFFFE, t.reg .ip)) (step (prepared 65536 [] 0 [(0, [0x18, 0x00])])) =
    some (0x0002, 0x0002) := by decide
/-- STK6, second step: `pop sp` leaves the popped word. -/
theorem test_popReg_stk6 : seen (fun t => (t.reg .sp, t.fsz, t.reg .fp, t.reg .ip))
    (step (prepared 65536 [(.ip, 0x0003), (.sp, 0xFFFC)] 2 [(3, [0x19, 0x0A]), (0xFFFE, [0xAB, 0xCD])])) =
    some (0xABCD, 0x0000, 0xFFFE, 0x0005) := by decide
/-- STK8: an empty stack; `sp` and `fsz` wrap. -/
theorem test_popReg_stk8 : seen (fun t => (t.reg .sp, t.fsz, t.reg .r1)) (step (prepared 65536 [] 0 [(0, [0x19, 0x02])])) =
    some (0x0000, 0xFFFE, 0x1902) := by decide
/-- CALL1. -/
theorem test_callLit_call1 : seen (fun t => (regsOf [.ip, .sp, .fp] t, t.fsz, t.wordAt 0xFFFA, t.wordAt 0xFFEA, t.wordAt 0xFFE8))
    (step (prepared 65536 [(.ip, 0x000A), (.sp, 0xFFFA), (.r1, 0x1111)] 4 [(0x0A, [0x1A, 0x00, 0x20])])) =
    some ([0x0020, 0xFFE6, 0xFFE6], 0x0000, 0x1111, 0x000D, 0x0018) := by decide
/-- CALL7: the tenth push faults. -/
theorem test_callLit_call7 : faultOf (step (prepared 65536 [(.sp, 0x0011), (.fp, 0x0011)] 0 [(0, [0x1A, 0x00, 0x20])])) =
    some (.memOutOfRange .write 0xFFFF 2) := by decide
/-- CALL3. -/
theorem test_callReg_call3 : seen (fun t => (regsOf [.ip, .sp, .fp, .r3] t, t.fsz, t.wordAt 0xFFF8, t.wordAt 0xFFEC, t.wordAt 0xFFEA))
    (step (prepared 65536 [(.ip, 0x0007), (.r3, 0x0030), (.sp, 0xFFFC)] 2 [(7, [0x1B, 0x04])])) =
    some ([0x0030, 0xFFE8, 0xFFE8, 0x0030], 0x0000, 0x0030, 0x0009, 0x0016) := by decide
/-- CALL5: `call sp` jumps to the old `sp`. -/
theorem test_callReg_call5 : seen (fun t => (t.reg .ip, t.wordAt 0xFFEE)) (step (prepared 65536 [] 0 [(0, [0x1B, 0x0A])])) =
    some (0xFFFE, 0x0002) := by decide
/-- RET1: one argument dropped, `acc` kept. -/
theorem test_ret_ret1 : seen (fun t => (regsOf [.ip, .r1, .r2, .sp, .fp, .acc] t, t.fsz))
    (step (prepared 65536 [(.ip, 0x002B), (.fp, 0xFFE6), (.sp, 0xFFE6), (.r1, 0x9999), (.r2, 0x2222), (.acc, 0x2229)] 0
      [(0x2B, [0x1C]), (0xFFE8, [0x00, 0x18, 0x00, 0x0D]), (0xFFFA, [0x11, 0x11, 0x00, 0x01, 0x00, 0x05])])) =
    some ([0x000D, 0x1111, 0x0000, 0xFFFE, 0xFFFE, 0x2229], 0x0000) := by decide
/-- RET4: no frame at all. -/
theorem test_ret_ret4 : seen (fun t => (regsOf [.ip, .sp, .fp] t, t.fsz)) (step (prepared 65536 [] 0 [(0, [0x1C])])) =
    some ([0x0000, 0x0014, 0x1BFE], 0x0000) := by decide

/-! ### Reset, the host's interface, listings -/

theorem test_reset_pointers : regsOf [.ip, .acc, .r1, .r8, .sp, .fp] State.reset = [0, 0, 0, 0, 0xFFFE, 0xFFFE] := by decide
/-- A table word stored at `ip` is the instruction the next step runs. -/
theorem test_withFetchWord : seen (regsOf [.r1, .ip]) (step (State.reset.withFetchWord 32 0x02341210)) = some [0x1234, 0x0004] := by
  decide
/-- STK1's listing. -/
theorem test_listing : lineText (instrLine (.movRegMem .r1 0x0100)) = "mov r1, #0100" := by decide
/-- R100: `$42` is the bytes 00 42. -/
theorem test_literal : (literalOfDigits [4, 2]).map wordBytes = some [0x00, 0x42] := by decide
theorem test_dump : (prepared 65536 [(.acc, 0x2A0F)] 0 []).dumpLines[1]? = some "acc: 0x2A0F" := by decide
/-- R226: what the host reads of Memory stops at its end. -/
theorem test_window : (prepared 256 [] 0 [(0xFE, [0xAB, 0xCD])]).memoryWindow 0xFE 4 = [0xAB, 0xCD] := by decide

/-! ### Witnesses: states and operands that meet the hypotheses of the statements, each clause at the edge of its range -/

/-- Memory of 256 bytes. -/
def small : State := prepared 256 [] 0 []

/-- The next state, for stating a hypothesis `… = .next t`. -/
def nextOf (s : State) : Host.Outcome State Fault Refusal → State
  | .next t => t
  | .fault _ => s
  | .refused _ => s

/-- A caller with one argument and the count on its stack (CALL1's start). -/
def caller : State := prepared 65536 [(.ip, 0x000D), (.sp, 0xFFFA), (.r1, 0x1111)] 4 [(0xFFFC, [0x00, 0x01, 0x00, 0x05])]

/-- The state in the routine that `caller` called. -/
def callee : State := nextOf caller (exec (.callLit 0x0020) caller)

/-- One instruction of each opcode. -/
def oneOfEach : List Instr :=
  [.movLitReg 1 .r1, .movLitMem 1 0xFFFE, .movRegReg .r1 .r2, .movRegMem .r1 0xFFFE, .movMemReg 0xFFFE .r1, .addRegReg .r1 .r2,
    .jneLitMem 1 2, .pshLit 1, .pshReg .r1, .popReg .r1, .callLit 1, .callReg .r1, .ret]

theorem witness_ResetStackPointers : Config.default.wf ∧ ({ Config.default with memSize := 2 } : Config).wf := by decide
theorem witness_ResetMeetsTheInvariants : Config.default.wf := by decide
theorem witness_LoadPlacesTheImage_fits :
    (prepared 4 [] 0 []).lastStatus = none ∧ [0x10, 0x00, 0x01, 0x02].length ≤ (prepared 4 [] 0 []).cfg.memSize := by decide
theorem witness_LoadPlacesTheImage_long :
    (prepared 4 [] 0 []).cfg.memSize < [0x10, 0x00, 0x01, 0x02, 0x1C].length := by decide
theorem witness_LoadPlacesTheImage_late : (State.reset.answer .continues).lastStatus ≠ none := by decide
theorem witness_RunStopsAtTheFirstHalt : ∃ t, run 1 State.reset = .halted t := ⟨_, rfl⟩
theorem witness_CallbackSeesEachStep : ∃ t, run 2 (prepared 65536 [] 0 [(0, [0x17, 0x00, 0x42])]) = .halted t := ⟨_, rfl⟩
theorem witness_DecodeOfEncode : Opc.default.Distinct := by decide
theorem witness_EncodeOfDecode :
    decode Opc.default [0x10, 0x11, 0x11, 0x0E, 0x00] = .ok (.movLitReg 0x1111 .r1, [0x00]) := rfl
theorem witness_AssembledProgramDecodes : Opc.default.Distinct ∧
    assemble Opc.default [instrLine (.pshLit 0x0042), instrLine .ret] = some [0x17, 0x00, 0x42, 0x1C] := by decide
theorem witness_AssembledProgramDecodes_refused :
    ∃ l ∈ [instrLine .ret, ⟨.mov, [.mem 0x0100, .mem 0x0102]⟩], assembleLine l = none := ⟨_, .tail _ (.head _), rfl⟩
theorem witness_AcceptedProgramsHaveBytes : ∀ l ∈ [instrLine (.pshLit 0x0042), instrLine .ret], assembleLine l ≠ none := by decide
theorem witness_LinesNameInstructions : assembleLine ⟨.jne, [.hex 0x0005, .mem 0x0000]⟩ = some (.jneLitMem 0x0005 0x0000) := rfl
theorem witness_LiteralsTakeTwoBytes : literalOfDigits [15] = some 0x000F ∧ literalOfDigits [4, 2] = some 0x0042 ∧
    literalOfDigits [15, 15, 15, 15] = some 0xFFFF := by decide
theorem witness_IllegalOpcodeCount : Opc.default.wf := by decide
theorem witness_RegisterCodesReduceModulo12 : ¬ canonicalCode 0x0C ∧ ¬ canonicalCode 0xFF := by decide
theorem witness_ByteRead : (0x00FF : Word).toNat < small.cfg.memSize ∧ small.cfg.memSize ≤ (0x0100 : Word).toNat := by decide
theorem witness_WordRead : (0x00FE : Word).toNat + 1 < small.cfg.memSize ∧ small.cfg.memSize ≤ (0x00FF : Word).toNat + 1 := by
  decide
theorem witness_WordWrite : (0xFFFE : Word).toNat + 1 < State.reset.cfg.memSize ∧
    State.reset.cfg.memSize ≤ (0xFFFF : Word).toNat + 1 := by decide
theorem witness_CanonicalMemoryIsDetermined :
    Memory.wf 256 [(0, 0x12), (255, 0x34)] ∧ Memory.write (Memory.write [] 255 0x34) 0 0x12 = [(0, 0x12), (255, 0x34)] := by decide
theorem witness_FetchPrimitives :
    (prepared 256 [(.ip, 0x00FF)] 0 []).byteInRange 0x00FF = true ∧ (prepared 256 [(.ip, 0x0100)] 0 []).byteInRange 0x0100 = false ∧
      (prepared 256 [(.ip, 0x00FE)] 0 []).wordInRange 0x00FE = true ∧
      (prepared 256 [(.ip, 0x00FF)] 0 []).wordInRange 0x00FF = false := by decide
theorem witness_FetchRegisterIndexIsTotal : (prepared 256 [(.ip, 0x00FF)] 0 []).byteInRange 0x00FF = true ∧
    (prepared 256 [(.ip, 0x0100)] 0 []).byteInRange 0x0100 = false ∧ Reg.r1 ≠ .ip := by decide

/-- A MOV at the end of 256 bytes of Memory, its last byte the last byte. -/
def atTheEnd : State := prepared 256 [(.ip, 0x00FC)] 0 [(0xFC, [0x10, 0x12, 0x34, 0x02])]

theorem witness_StepRunsTheDecodedInstruction : atTheEnd.cfg.wf ∧ atTheEnd.byteInRange (atTheEnd.reg .ip) = true ∧
    atTheEnd.operandFault (atTheEnd.reg .ip + 1) (Instr.movLitReg 0x1234 .r1).op.operands = none := by decide
theorem witness_StepRunsTheDecodedInstruction_bytes :
    decode atTheEnd.cfg.opc (atTheEnd.bytesFrom (atTheEnd.reg .ip) 5) = .ok (.movLitReg 0x1234 .r1, [0x00]) := rfl
theorem witness_StepRunsTheEncodedInstruction :
    atTheEnd.bytesFrom (atTheEnd.reg .ip) 4 = encode atTheEnd.cfg.opc (.movLitReg 0x1234 .r1) := by decide
theorem witness_StepFaultsWhenAFetchLeavesMemory :
    (prepared 256 [(.ip, 0x0100)] 0 []).byteInRange 0x0100 = false ∧
      (prepared 65536 [(.ip, 0xFFFE)] 0 [(0xFFFE, [0x17, 0x12])]).operandFault 0xFFFF (Instr.pshLit 0x1200).op.operands =
        some (.memOutOfRange .fetch 0xFFFF 2) := by decide
theorem witness_StepFaultsWhenAFetchLeavesMemory_bytes :
    decode Opc.default ((prepared 65536 [(.ip, 0xFFFE)] 0 [(0xFFFE, [0x17, 0x12])]).bytesFrom 0xFFFE 5) =
      .ok (.pshLit 0x1200, [0x00, 0x00]) := rfl
theorem witness_IllegalOpcodeHalts : State.reset.byteInRange (State.reset.reg .ip) = true ∧
    State.reset.cfg.opc.lookup (State.reset.byteAt (State.reset.reg .ip).toNat) = none := by decide

/-- Every instruction has a state in which it answers a next state; used for each statement whose hypothesis is `exec i s = .next t`. -/
theorem witness_exec_next : ∀ i ∈ oneOfEach, seen State.lastStatus (exec i State.reset) = some (some .continues) := by decide
theorem witness_OnlyIllegalOpcodesHalt : seen State.lastStatus (step State.reset) = some (some .halts) ∧
    seen State.lastStatus (step atTheEnd) = some (some .continues) := by decide
theorem witness_StepKeepsWellFormed : atTheEnd.wf ∧ seen State.lastStatus (step atTheEnd) = some (some .continues) := by decide
theorem witness_StepKeepsTheParameters : seen State.cfg (step atTheEnd) = some atTheEnd.cfg := by decide
theorem witness_FaultsOnlyOutsideMemory : faultOf (step (prepared 256 [(.ip, 0x0100)] 0 [])) = some (.memOutOfRange .fetch 0x0100 1) ∧
    faultOf (step (prepared 65536 [(.ip, 0xFFFE)] 0 [(0xFFFE, [0x17, 0x12])])) = some (.memOutOfRange .fetch 0xFFFF 2) := by decide
theorem witness_FaultKindsByInstruction :
    faultOf (exec .ret (prepared 65536 [(.fp, 0xFFFD)] 0 [])) = some (.memOutOfRange .read 0xFFFF 2) ∧
      faultOf (exec (.pshLit 1) (prepared 65536 [(.sp, 0xFFFF)] 0 [])) = some (.memOutOfRange .write 0xFFFF 2) := by decide
theorem witness_MovIntoMemory : State.reset.wordInRange 0xFFFE = true ∧ State.reset.wordInRange 0xFFFF = false := by decide
theorem witness_MovIntoMemory_register : ∃ src, Instr.movRegMem .r1 0xFFFE = .movRegMem src 0xFFFE ∧ caller.reg .r1 = caller.reg src :=
  ⟨_, rfl, rfl⟩
theorem witness_MovFromMemory : small.wordInRange 0x00FE = true ∧ small.wordInRange 0x00FF = false := by decide
theorem witness_JneJumpsOnInequality : (1 : Word) ≠ State.reset.reg .acc ∧ (0 : Word) = State.reset.reg .acc := by decide
theorem witness_PushEffect : State.reset.wordInRange (State.reset.reg .sp) = true ∧
    (prepared 65536 [(.sp, 0xFFFF)] 0 []).wordInRange 0xFFFF = false := by decide
theorem witness_PshPushes : ∃ r, Instr.pshReg .sp = .pshReg r ∧ State.reset.reg .sp = State.reset.reg r := ⟨_, rfl, rfl⟩
theorem witness_PopPops : State.reset.wordInRange (State.reset.reg .sp + 2) = true ∧
    (prepared 65536 [(.sp, 0xFFFD)] 0 []).wordInRange (0xFFFD + 2) = false := by decide
theorem witness_PopUndoesPush : State.reset.wordInRange (State.reset.reg .sp) = true := by decide
theorem witness_CallSavesAndJumps : ∀ k < 10, State.reset.wordInRange (pushAddr (State.reset.reg .sp) k) = true := by decide
theorem witness_CallSavesAndJumps_register : ∃ r, Instr.callReg .r1 = .callReg r ∧ caller.reg .r1 = caller.reg r := ⟨_, rfl, rfl⟩
theorem witness_FrameLayout : ∃ t, exec (.callLit 0x0020) caller = .next t := ⟨_, rfl⟩
theorem witness_RetRestores : (1 : Word) = callee.wordAt (callee.reg .fp + 22).toNat ∧
    ∀ k < 12, callee.wordInRange (popAddr (callee.reg .fp) k) = true := by decide
theorem witness_CallFaultsOnTheFirstBadPush :
    (∀ j < 9, State.reset.wordInRange (pushAddr 0x0011 j) = true) ∧ State.reset.wordInRange (pushAddr 0x0011 9) = false ∧
      State.reset.wordInRange (pushAddr 0xFFFF 0) = false := by decide
/-- The count of one argument is the last word but one of Memory: the discarding pop is the one that leaves it. -/
theorem witness_RetFaultsOnTheFirstBadPop :
    (1 : Word) = (prepared 256 [(.fp, 0x00E7)] 0 [(0xFD, [0x00, 0x01])]).wordAt 0xFD ∧
      (∀ j < 11, small.wordInRange (popAddr 0x00E7 j) = true) ∧ small.wordInRange (popAddr 0x00E7 11) = false ∧
      State.reset.wordInRange (popAddr 0xFFFD 0) = false := by decide
theorem witness_RetReadsNeitherSpFszIpNorR1ToR8 : Reg.sp ≠ .fp ∧ Reg.sp ≠ .acc := by decide
theorem witness_FrameCounterIsHidden : (∀ a, Instr.ret ≠ .callLit a) ∧ ∀ r, Instr.ret ≠ .callReg r :=
  ⟨fun _ => nofun, fun _ => nofun⟩
theorem witness_FrameLinkIsKept : caller.frameLinked ∧
    seen (fun t => decide t.frameLinked) (exec (.pshReg .r1) caller) = some true ∧ Instr.pshReg .r1 ≠ .ret := by decide
theorem witness_FrameLinkIsKept_operands : ∀ d, d = Reg.sp ∨ d = .fp →
    (∀ v, Instr.pshReg .r1 ≠ .movLitReg v d) ∧ (∀ r, Instr.pshReg .r1 ≠ .movRegReg r d) ∧
      (∀ m, Instr.pshReg .r1 ≠ .movMemReg m d) ∧ Instr.pshReg .r1 ≠ .popReg d :=
  fun _ _ => ⟨fun _ => nofun, fun _ => nofun, fun _ => nofun, nofun⟩
theorem witness_MatchingReturn_call : exec (.callLit 0x0020) caller = .next callee := rfl
theorem witness_MatchingReturn : (1 : Word) = callee.wordAt (caller.reg .sp + 2).toNat ∧
    (∀ k < 2, callee.wordInRange (popAddr (caller.reg .sp) k) = true) ∧ caller.frameLinked ∧ caller.fsz = 2 + 2 * (1 : Word) := by
  decide
theorem witness_SourceIpIsTheNextInstruction_mov :
    decode Opc.default ((prepared 65536 [] 0 [(0, [0x12, 0x00, 0x02])]).bytesFrom 0 5) = .ok (.movRegReg .ip .r1, [0x00, 0x00]) ∧
      (prepared 65536 [] 0 [(0, [0x12, 0x00, 0x02])]).operandFault (0 + 1) [.reg, .reg] = none := ⟨rfl, by decide⟩
theorem witness_SourceIpIsTheNextInstruction_psh :
    decode Opc.default ((prepared 65536 [] 0 [(0, [0x18, 0x00])]).bytesFrom 0 5) = .ok (.pshReg .ip, [0x00, 0x00, 0x00]) ∧
      (prepared 65536 [] 0 [(0, [0x18, 0x00])]).operandFault (0 + 1) [.reg] = none := ⟨rfl, by decide⟩
theorem witness_NextFetchSeesTheStore : ∃ t, exec (.movLitMem 0x1C00 0x0005) (prepared 65536 [(.ip, 0x0005)] 0 []) = .next t ∧
    t.reg .ip = 0x0005 := ⟨_, rfl, rfl⟩

end Sys2Proof.Tests
end

section
/-! The statements about the state (spec/10_state.md), and the lemmas for them: what reset gives, what every instruction keeps, and that no step
reads the status and no instruction but CALL reads `fsz`. -/

namespace Sys2Proof.Machine

/-! ### The state after reset -/

theorem resetWith_sp (c : Config) :
    (State.resetWith c).reg .sp = BitVec.ofNat 16 (c.memSize - c.spInitOffset) := rfl

theorem resetWith_fp (c : Config) : (State.resetWith c).reg .fp = (State.resetWith c).reg .sp := rfl

/-- The offset of at least 2 keeps the first stack address within 16 bits, even with 65536 bytes of Memory. -/
theorem toNat_resetWith_sp {c : Config} (h : c.wf) :
    ((State.resetWith c).reg .sp).toNat = c.memSize - c.spInitOffset := by
  obtain ⟨hoff, -, hmem, -⟩ := h
  rw [resetWith_sp, BitVec.toNat_ofNat, Nat.mod_eq_of_lt]
  omega

theorem resetWith_reg_of_ne (c : Config) {r : Reg} (hsp : r ≠ .sp) (hfp : r ≠ .fp) :
    (State.resetWith c).reg r = 0 := by
  cases r
  case sp => exact absurd rfl hsp
  case fp => exact absurd rfl hfp
  all_goals rfl

theorem resetWith_wf {c : Config} (h : c.wf) : (State.resetWith c).wf := ⟨h, Memory.nil_wf _⟩

theorem resetWith_frameLinked (c : Config) : (State.resetWith c).frameLinked := by
  rw [State.frameLinked, resetWith_fp, BitVec.sub_self]
  rfl

/-! ### What every instruction keeps -/

theorem exec_cfg {i : Instr} {s t : State} (h : exec i s = .next t) : t.cfg = s.cfg := by
  have ht := exec_next h
  cases i with
  | jneLitMem lit addr => rw [ht, State.answer_cfg, apply_ite State.cfg, State.setReg_cfg, ite_self]
  | callLit addr | callReg r | ret => simp [ht]
  | movLitReg lit d | movRegReg src d | movLitMem lit addr | movRegMem src addr | movMemReg addr d | addRegReg a b
  | pshLit lit | pshReg r | popReg r => rw [ht]; rfl

theorem step_cfg {s t : State} (h : step s = .next t) : t.cfg = s.cfg := by
  obtain ⟨-, rfl⟩ | ⟨o, -, ho⟩ := step_next h
  · rfl
  · exact (exec_cfg ho).trans (State.setReg_cfg s _ _)

/-- Every instruction ends in `continue` or a fault, so none is refused (spec/40_fetch_decode.md R115). -/
theorem exec_eq_finish (i : Instr) (s : State) : ∃ x, exec i s = finish x := by
  cases i with
  | movLitReg lit d | movRegReg src d | addRegReg a b | jneLitMem lit addr => exact ⟨.ok _, rfl⟩
  | movLitMem lit addr | movRegMem src addr | movMemReg addr d | pshLit lit | pshReg r | popReg r | callLit addr
  | callReg r | ret => exact ⟨_, rfl⟩

theorem exec_ne_refused (i : Instr) (s : State) (r : Refusal) : exec i s ≠ .refused r := by
  obtain ⟨x, hx⟩ := exec_eq_finish i s
  rw [hx]
  cases x <;> nofun

/-- `acc` is the only register outside RET's list (spec/10_state.md R23). -/
theorem eq_acc_of_not_mem_writtenRegs_ret {r : Reg} (h : r ∉ writtenRegs .ret) : r = .acc := by
  revert h
  cases r <;> decide

theorem exec_keepsRegs {i : Instr} {s t : State} (h : exec i s = .next t) : s.keepsRegs t (writtenRegs i) := by
  intro r hr
  have ht := exec_next h
  cases i with
  | ret =>
    obtain rfl := eq_acc_of_not_mem_writtenRegs_ret hr
    rw [ht, State.answer_reg, returnedState_acc]
  | callLit addr | callReg q =>
    simp only [writtenRegs, List.mem_cons, List.not_mem_nil, or_false, not_or] at hr
    obtain ⟨hsp, hfp, hip⟩ := hr
    rw [ht, State.answer_reg, State.reg_setReg_ne _ _ _ _ hip, calledState_reg s hsp hfp]
  | popReg d =>
    simp only [writtenRegs, List.mem_cons, List.not_mem_nil, or_false, not_or] at hr
    obtain ⟨hsp, hd⟩ := hr
    rw [ht, State.answer_reg, State.reg_setReg_ne _ _ _ _ hd, popped_reg hsp]
  | pshLit lit | pshReg q =>
    rw [ht, State.answer_reg, pushed_reg (List.ne_of_not_mem_cons hr)]
  | movLitMem lit addr | movRegMem src addr => rw [ht, State.answer_reg, stored_reg]
  | jneLitMem lit addr =>
    rw [ht, State.answer_reg]
    split
    · rfl
    · exact State.reg_setReg_ne _ _ _ _ (List.ne_of_not_mem_cons hr)
  | movLitReg lit d | movRegReg src d | movMemReg addr d | addRegReg a b =>
    rw [ht, State.answer_reg, State.reg_setReg_ne _ _ _ _ (List.ne_of_not_mem_cons hr)]

/-! ### The status is not read -/

section Status

variable (s : State) (st : Option StepStatus)

theorem State.reg_withStatus (r : Reg) : ({ s with lastStatus := st } : State).reg r = s.reg r := by cases r <;> rfl

theorem State.byteInRange_withStatus (a : Word) :
    ({ s with lastStatus := st } : State).byteInRange a = s.byteInRange a := rfl

theorem State.byteAt_withStatus (a : Nat) : ({ s with lastStatus := st } : State).byteAt a = s.byteAt a := rfl

theorem State.setReg_withStatus (r : Reg) (v : Word) :
    ({ s with lastStatus := st } : State).setReg r v = { s.setReg r v with lastStatus := st } := rfl

theorem State.answer_withStatus (a : StepStatus) : ({ s with lastStatus := st } : State).answer a = s.answer a := rfl

theorem State.operandFault_withStatus (a : Word) (ks : List OperandKind) :
    ({ s with lastStatus := st } : State).operandFault a ks = s.operandFault a ks := by
  induction ks generalizing a with
  | nil => rfl
  | cons k ks ih => cases k <;> simp only [State.operandFault, ih] <;> rfl

theorem State.instrAt_withStatus (a : Word) (o : Op) :
    ({ s with lastStatus := st } : State).instrAt a o = s.instrAt a o := by cases o <;> rfl

theorem pushedAll_withStatus (vs : List Word) :
    pushedAll vs { s with lastStatus := st } = { pushedAll vs s with lastStatus := st } := by
  induction vs generalizing s with
  | nil => rfl
  | cons v vs ih => exact ih (pushed v s)

theorem calledState_withStatus :
    calledState { s with lastStatus := st } = { calledState s with lastStatus := st } := by
  rw [calledState, pushedAll_withStatus]
  rfl

theorem exec_callLit_withStatus (addr : Word) :
    exec (.callLit addr) { s with lastStatus := st } = exec (.callLit addr) s := by
  rw [exec_callLit, exec_callLit, State.reg_withStatus, calledState_withStatus,
    State.pushFault_congr (s := { s with lastStatus := st }) (t := s) rfl]
  simp only [State.setReg_withStatus, State.answer_withStatus]

end Status

/-- The registers that RET does not pop (spec/45_call_ret.md R181). -/
theorem eq_acc_or_sp_or_fp_of_not_mem_returnRegs {r : Reg} (h : r ∉ returnRegs) : r = .acc ∨ r = .sp ∨ r = .fp := by
  revert h
  cases r <;> decide

theorem argCount_congr {s t : State} (hfp : s.reg .fp = t.reg .fp) (hm : s.mem = t.mem) : argCount s = argCount t := by
  rw [argCount, argCount, State.wordAt, State.wordAt, hfp, hm]

/-- RET reads `fp`, `acc`, Memory and the parameters alone: the rest of the state it answers is popped or fixed (spec/45_call_ret.md R181). -/
theorem returnedState_answer_congr {s t : State} (hfp : s.reg .fp = t.reg .fp) (hacc : s.reg .acc = t.reg .acc)
    (hm : s.mem = t.mem) (hc : s.cfg = t.cfg) :
    (returnedState s).answer .continues = (returnedState t).answer .continues := by
  have hw : ∀ a, s.wordAt a = t.wordAt a := fun a => congrArg (Memory.readWord · a) hm
  refine State.eq_of_fields (fun r => ?_) rfl (by simpa using hm) (by simpa using hc) rfl
  rw [State.answer_reg, State.answer_reg]
  by_cases hr : r ∈ returnRegs
  · obtain ⟨k, hk, rfl⟩ := List.mem_iff_getElem.1 hr
    rw [returnedState_popped s hk, returnedState_popped t hk, hfp, hw]
  · obtain rfl | rfl | rfl := eq_acc_or_sp_or_fp_of_not_mem_returnRegs hr
    · rw [returnedState_acc, returnedState_acc, hacc]
    · rw [returnedState_sp, returnedState_sp, hfp, argCount_congr hfp hm]
    · rw [returnedState_fp, returnedState_fp, hfp, hw]

theorem exec_ret_congr {s t : State} (hfp : s.reg .fp = t.reg .fp) (hacc : s.reg .acc = t.reg .acc)
    (hm : s.mem = t.mem) (hc : s.cfg = t.cfg) : exec .ret s = exec .ret t := by
  rw [exec_ret, exec_ret, returnedState_answer_congr hfp hacc hm hc, hfp, argCount_congr hfp hm,
    State.popFault_congr (congrArg Config.memSize hc)]

theorem exec_withStatus (i : Instr) (s : State) (st : Option StepStatus) :
    exec i { s with lastStatus := st } = exec i s := by
  cases i with
  | ret => exact exec_ret_congr rfl rfl rfl rfl
  | callLit addr => exact exec_callLit_withStatus s st addr
  | callReg r => exact exec_callLit_withStatus s st (s.reg r)
  | jneLitMem lit addr =>
    rw [exec_jneLitMem, exec_jneLitMem, State.reg_withStatus]
    split <;> rfl
  | movLitMem lit addr => rw [exec_movLitMem, exec_movLitMem]; rfl
  | movRegMem src addr => rw [exec_movRegMem, exec_movRegMem]; rfl
  | movMemReg addr d => rw [exec_movMemReg, exec_movMemReg]; rfl
  | pshLit lit => rw [exec_pshLit, exec_pshLit]; rfl
  | pshReg r => rw [exec_pshReg, exec_pshReg]; rfl
  | popReg r => rw [exec_popReg, exec_popReg]; rfl
  | movLitReg lit d | movRegReg src d | addRegReg a b => rfl

theorem step_withStatus (s : State) (st : Option StepStatus) : step { s with lastStatus := st } = step s := by
  rw [step_eq, step_eq]
  simp only [State.reg_withStatus, State.byteInRange_withStatus, State.byteAt_withStatus, State.setReg_withStatus,
    State.operandFault_withStatus, State.instrAt_withStatus, exec_withStatus]
  rfl

/-! ### `fsz` is not read but by CALL -/

/-- An outcome with `fsz` replaced in its next state, if it has one. -/
def outcomeSetFsz (w : Word) : Host.Outcome State Fault Refusal → Host.Outcome State Fault Refusal
  | .next t => .next (t.setFsz w)
  | .fault f => .fault f
  | .refused r => .refused r

theorem exists_eq_outcomeSetFsz (o : Host.Outcome State Fault Refusal) : ∃ w, o = outcomeSetFsz w o := by
  cases o with
  | next t => exact ⟨t.fsz, rfl⟩
  | fault f | refused r => exact ⟨0, rfl⟩

/-- Another `fsz` before an instruction other than CALL shows in nothing but `fsz` after it (spec/10_state.md R29). -/
theorem exec_setFsz {i : Instr} (hlit : ∀ a, i ≠ .callLit a) (hreg : ∀ r, i ≠ .callReg r) (s : State) (v : Word) :
    ∃ w, exec i (s.setFsz v) = outcomeSetFsz w (exec i s) := by
  cases i with
  | callLit addr => exact absurd rfl (hlit addr)
  | callReg r => exact absurd rfl (hreg r)
  | ret =>
    rw [exec_ret_congr (s := s.setFsz v) (t := s) (State.setFsz_reg ..) (State.setFsz_reg ..) rfl rfl]
    exact exists_eq_outcomeSetFsz _
  | pshLit lit => exact ⟨v + 2, by rw [exec_pshLit, exec_pshLit, apply_ite (outcomeSetFsz _)]; rfl⟩
  | pshReg r => exact ⟨v + 2, by rw [exec_pshReg, exec_pshReg, apply_ite (outcomeSetFsz _)]; rfl⟩
  | popReg r => exact ⟨v - 2, by rw [exec_popReg, exec_popReg, apply_ite (outcomeSetFsz _)]; rfl⟩
  | movLitMem lit addr => exact ⟨v, by rw [exec_movLitMem, exec_movLitMem, apply_ite (outcomeSetFsz _)]; rfl⟩
  | movRegMem src addr => exact ⟨v, by rw [exec_movRegMem, exec_movRegMem, apply_ite (outcomeSetFsz _)]; rfl⟩
  | movMemReg addr d => exact ⟨v, by rw [exec_movMemReg, exec_movMemReg, apply_ite (outcomeSetFsz _)]; rfl⟩
  | jneLitMem lit addr =>
    refine ⟨v, ?_⟩
    rw [exec_jneLitMem, exec_jneLitMem, State.setFsz_reg]
    split <;> rfl
  | movLitReg lit d | movRegReg src d | addRegReg a b => exact ⟨v, rfl⟩

/-! ### The statements -/

/-- Settles O27: neither the fetch nor any instruction reads the status, and every outcome overwrites it. -/
theorem noStepReadsTheStatus : Obligations.NoStepReadsTheStatus := step_withStatus

/-- Settles O30, by what every instruction keeps. -/
theorem stepKeepsTheParameters : Obligations.StepKeepsTheParameters := fun _ _ => step_cfg

/-- Settles O49, instruction by instruction. -/
theorem onlyListedRegistersChange : Obligations.OnlyListedRegistersChange := fun _ _ _ => exec_keepsRegs

/-- Settles O50, from the next state of each instruction. -/
theorem frameCounterRule : Obligations.FrameCounterRule := by
  intro i s t h
  have ht := exec_next h
  cases i with
  | jneLitMem lit addr => rw [ht, State.answer_fsz, apply_ite State.fsz, State.setReg_fsz, ite_self]
  | pshLit lit | pshReg r | popReg r | callLit addr | callReg r | ret | movLitReg lit d | movLitMem lit addr
  | movRegReg src d | movRegMem src addr | movMemReg addr d | addRegReg a b => rw [ht]; rfl

/-- Settles O51: the two outcomes differ in `fsz` alone, and no instruction is refused. -/
theorem frameCounterIsHidden : Obligations.FrameCounterIsHidden := by
  intro i s v hlit hreg
  obtain ⟨w, hw⟩ := exec_setFsz hlit hreg s v
  rw [hw]
  cases he : exec i s with
  | next t => exact ⟨rfl, rfl, rfl, rfl⟩
  | fault f => rfl
  | refused r => exact exec_ne_refused i s r he

/-- Settles O1: the offset keeps the difference within 16 bits. -/
theorem resetStackPointers : Obligations.ResetStackPointers :=
  ⟨fun c hc => ⟨toNat_resetWith_sp hc, resetWith_fp c⟩, rfl, rfl⟩

/-- Settles O2, from the contents of the state after reset. -/
theorem resetClearsEverythingElse : Obligations.ResetClearsEverythingElse :=
  fun c => ⟨fun _ => resetWith_reg_of_ne c, rfl, fun _ => rfl, rfl, rfl⟩

/-- Settles O3: Memory is empty, and `fp - sp` is 0. -/
theorem resetMeetsTheInvariants : Obligations.ResetMeetsTheInvariants :=
  ⟨fun c hc => ⟨resetWith_wf hc, resetWith_frameLinked c⟩, resetWith_wf (by decide)⟩

end Sys2Proof.Machine
end

section
/-! The statements about Memory (spec/20_memory.md), and the lemmas for them: a canonical Memory has one representation, every next state keeps
the canonical form, every fault names an access that leaves Memory, and what the loader and a store leave. -/

namespace Sys2Proof.Machine

/-! ### A canonical Memory is determined by its bytes -/

/-- The canonical form, entry by entry. -/
theorem Memory.wf_cons {size k : Nat} {b : Byte} {m : Memory} :
    Memory.wf size ((k, b) :: m) ↔ (k < size ∧ b ≠ Memory.blank) ∧ (∀ c ∈ m, k < c.1) ∧ Memory.wf size m := by
  simp only [Memory.wf, List.pairwise_cons, List.forall_mem_cons]
  tauto

theorem Memory.read_cons_self (k : Nat) (b : Byte) (m : Memory) : Memory.read ((k, b) :: m) k = b := if_pos rfl

theorem Memory.read_cons_of_ne {a k : Nat} (h : a ≠ k) (b : Byte) (m : Memory) :
    Memory.read ((k, b) :: m) a = Memory.read m a := if_neg h

/-- An address below every listed one reads as blank. -/
theorem Memory.read_eq_blank_of_lt {m : Memory} {a : Nat} (h : ∀ c ∈ m, a < c.1) : Memory.read m a = Memory.blank := by
  induction m with
  | nil => rfl
  | cons c m ih =>
    obtain ⟨hc, hm⟩ := List.forall_mem_cons.1 h
    exact (Memory.read_cons_of_ne (Nat.ne_of_lt hc) _ _).trans (ih hm)

/-- The first address of a canonical Memory is the lowest that does not read as blank. -/
theorem Memory.head_le_of_read_ne_blank {size k a : Nat} {b : Byte} {m : Memory} (h : Memory.wf size ((k, b) :: m))
    (ha : Memory.read ((k, b) :: m) a ≠ Memory.blank) : k ≤ a := by
  obtain ⟨-, hk, -⟩ := Memory.wf_cons.1 h
  by_contra hlt
  refine ha (Memory.read_eq_blank_of_lt (List.forall_mem_cons.2 ⟨by omega, fun c hc => ?_⟩))
  have := hk c hc
  omega

theorem Memory.read_head_ne_blank {size k : Nat} {b : Byte} {m : Memory} (h : Memory.wf size ((k, b) :: m)) :
    Memory.read ((k, b) :: m) k ≠ Memory.blank := by
  obtain ⟨⟨-, hb⟩, -⟩ := Memory.wf_cons.1 h
  rwa [Memory.read_cons_self]

/-- What is left of a canonical Memory without its first entry. -/
theorem Memory.read_tail {size k : Nat} {b : Byte} {m : Memory} (h : Memory.wf size ((k, b) :: m)) (a : Nat) :
    Memory.read m a = if a = k then Memory.blank else Memory.read ((k, b) :: m) a := by
  obtain ⟨-, hk, -⟩ := Memory.wf_cons.1 h
  split
  · rename_i hak
    exact Memory.read_eq_blank_of_lt (hak ▸ hk)
  · rename_i hak
    exact (Memory.read_cons_of_ne hak b m).symm

theorem Memory.eq_nil_of_read_eq_blank {size : Nat} {m : Memory} (h : Memory.wf size m)
    (hr : ∀ a, Memory.read m a = Memory.blank) : m = [] := by
  cases m with
  | nil => rfl
  | cons c m => exact absurd (hr c.1) (Memory.read_head_ne_blank h)

theorem Memory.eq_of_read_eq {size : Nat} {m m' : Memory} (h : Memory.wf size m) (h' : Memory.wf size m')
    (hr : ∀ a, Memory.read m a = Memory.read m' a) : m = m' := by
  induction m generalizing m' with
  | nil => exact (Memory.eq_nil_of_read_eq_blank h' fun a => (hr a).symm).symm
  | cons c m ih =>
    cases m' with
    | nil => exact Memory.eq_nil_of_read_eq_blank h hr
    | cons c' m' =>
      obtain ⟨k, b⟩ := c
      obtain ⟨k', b'⟩ := c'
      have hkk' : k ≤ k' := Memory.head_le_of_read_ne_blank h (hr k' ▸ Memory.read_head_ne_blank h')
      have hk'k : k' ≤ k := Memory.head_le_of_read_ne_blank h' (hr k ▸ Memory.read_head_ne_blank h)
      obtain rfl := Nat.le_antisymm hkk' hk'k
      have hb : b = b' := by simpa only [Memory.read_cons_self] using hr k
      have hm : m = m' := by
        obtain ⟨-, -, hw⟩ := Memory.wf_cons.1 h
        obtain ⟨-, -, hw'⟩ := Memory.wf_cons.1 h'
        exact ih hw hw' fun a => by rw [Memory.read_tail h, Memory.read_tail h', hr]
      rw [hb, hm]

/-! ### The loader -/

theorem State.load_of_fits {s : State} {image : List Byte} (hs : s.lastStatus = none) (hl : s.cfg.Loadable image) :
    s.load image = some (s.setMem (Memory.writeBytes s.mem 0 image)) := if_pos ⟨hs, hl⟩

theorem State.load_eq_none_of_too_long {s : State} {image : List Byte} (h : s.cfg.memSize < image.length) :
    s.load image = none := if_neg fun ⟨_, hl⟩ => Nat.not_le.2 h hl

theorem State.load_eq_none_of_late {s : State} {image : List Byte} (h : s.lastStatus ≠ none) :
    s.load image = none := if_neg fun ⟨hs, _⟩ => h hs

/-! ### The range checks, and what a word write leaves -/

theorem State.byteAt_setMem (s : State) (m : Memory) (a : Nat) : (s.setMem m).byteAt a = Memory.read m a := rfl

theorem State.wordInRange_eq_false_iff {s : State} {a : Word} :
    s.wordInRange a = false ↔ s.cfg.memSize ≤ a.toNat + 1 := by
  simp [State.wordInRange]

theorem State.byteInRange_eq_false_iff {s : State} {a : Word} : s.byteInRange a = false ↔ s.cfg.memSize ≤ a.toNat := by
  simp [State.byteInRange]

/-- The first byte of a word in Memory is in Memory. -/
theorem State.byteInRange_of_wordInRange {s : State} {a : Word} (h : s.wordInRange a = true) : s.byteInRange a = true :=
  State.byteInRange_iff.2 (Nat.lt_of_succ_lt (State.wordInRange_iff.1 h))

theorem State.byteAt_setMem_writeWord_high (s : State) (a : Nat) (v : Word) :
    (s.setMem (Memory.writeWord s.mem a v)).byteAt a = highByte v := Memory.read_writeWord_high s.mem a v

theorem State.byteAt_setMem_writeWord_low (s : State) (a : Nat) (v : Word) :
    (s.setMem (Memory.writeWord s.mem a v)).byteAt (a + 1) = lowByte v := Memory.read_writeWord_low s.mem a v

/-- A word write leaves every byte outside its word alone (spec/20_memory.md R54). -/
theorem State.keepsMemoryOutside_setMem_writeWord (s : State) (a v : Word) :
    s.keepsMemoryOutside (s.setMem (Memory.writeWord s.mem a.toNat v)) [a] := by
  intro b hb
  obtain ⟨hne, hne'⟩ := not_or.1 (hb a (List.mem_singleton_self a))
  exact Memory.read_writeWord_of_ne s.mem v hne hne'

/-! ### Where an instruction that stores completes, and where an instruction faults -/

section Outcomes

variable {s t : State} {f : Fault}

/-- A range-checked outcome that is a next state: the check was passed. -/
theorem next_of_checked {c : Bool} {u : State} {g : Fault}
    (h : (if c then (.next u : Host.Outcome State Fault Refusal) else .fault g) = .next t) : c = true ∧ t = u := by
  cases c with
  | true => cases h; exact ⟨rfl, rfl⟩
  | false => cases h

/-- A range-checked outcome that is a fault names a word access that leaves Memory. -/
theorem fault_out_of_checked {k : AccessKind} {a : Word} {u : State}
    (h : (if s.wordInRange a then (.next u : Host.Outcome State Fault Refusal) else .fault (.memOutOfRange k a 2)) = .fault f) :
    ∃ k a, f = .memOutOfRange k a 2 ∧ s.wordInRange a = false := by
  split at h
  · cases h
  · rename_i hr
    cases h
    exact ⟨k, a, rfl, eq_false_of_ne_true hr⟩

theorem exec_movLitMem_next {v a : Word} (h : exec (.movLitMem v a) s = .next t) :
    s.wordInRange a = true ∧ t = (stored a v s).answer .continues :=
  next_of_checked (exec_movLitMem v a s ▸ h)

theorem exec_pshLit_next {v : Word} (h : exec (.pshLit v) s = .next t) :
    s.wordInRange (s.reg .sp) = true ∧ t = (pushed v s).answer .continues :=
  next_of_checked (exec_pshLit v s ▸ h)

theorem exec_callLit_next {a : Word} (h : exec (.callLit a) s = .next t) :
    s.pushFault (s.reg .sp) 10 = none ∧ t = ((calledState s).setReg .ip a).answer .continues := by
  rw [exec_callLit] at h
  split at h
  · rename_i hp
    cases h
    exact ⟨hp, rfl⟩
  · cases h

/-- After its bytes are fetched an instruction faults on a word access only, and on one that leaves Memory (spec/60_exceptions.md R212). -/
theorem exec_fault_out {i : Instr} (h : exec i s = .fault f) :
    ∃ k a, f = .memOutOfRange k a 2 ∧ s.wordInRange a = false := by
  cases i with
  | movLitReg lit d | movRegReg src d | addRegReg a b | jneLitMem lit addr => cases h
  | movLitMem lit addr => exact fault_out_of_checked (exec_movLitMem lit addr s ▸ h)
  | movRegMem src addr => exact fault_out_of_checked (exec_movRegMem src addr s ▸ h)
  | movMemReg addr d => exact fault_out_of_checked (exec_movMemReg addr d s ▸ h)
  | pshLit lit => exact fault_out_of_checked (exec_pshLit lit s ▸ h)
  | pshReg r => exact fault_out_of_checked (exec_pshReg r s ▸ h)
  | popReg r => exact fault_out_of_checked (exec_popReg r s ▸ h)
  | callLit addr =>
    rw [exec_callLit] at h
    split at h <;> cases h
    exact ⟨_, State.pushFault_out ‹_›⟩
  | callReg r =>
    rw [exec_callReg] at h
    split at h <;> cases h
    exact ⟨_, State.pushFault_out ‹_›⟩
  | ret =>
    rw [exec_ret] at h
    split at h <;> cases h
    exact ⟨_, State.popFault_out ‹_›⟩

end Outcomes

/-! ### Every step keeps the canonical form -/

theorem calledState_wf {s : State} (hw : Memory.wf s.cfg.memSize s.mem) (h : s.pushFault (s.reg .sp) 10 = none) :
    Memory.wf s.cfg.memSize (calledState s).mem := by
  rw [calledState_mem]
  exact pushedAll_wf hw h

/-- An instruction writes Memory inside `MEM_SIZE` or not at all, so it keeps the canonical form. -/
theorem exec_mem_wf {i : Instr} {s t : State} (hw : Memory.wf s.cfg.memSize s.mem) (h : exec i s = .next t) :
    Memory.wf s.cfg.memSize t.mem := by
  cases i with
  | movLitMem lit addr =>
    obtain ⟨hr, rfl⟩ := exec_movLitMem_next h
    exact stored_wf hw hr
  | movRegMem src addr =>
    obtain ⟨hr, rfl⟩ := exec_movLitMem_next (v := s.reg src) h
    exact stored_wf hw hr
  | pshLit lit =>
    obtain ⟨hr, rfl⟩ := exec_pshLit_next h
    exact pushed_wf rfl hw hr
  | pshReg r =>
    obtain ⟨hr, rfl⟩ := exec_pshLit_next (v := s.reg r) h
    exact pushed_wf rfl hw hr
  | callLit addr =>
    obtain ⟨hp, rfl⟩ := exec_callLit_next h
    rw [State.answer_mem, State.setReg_mem]
    exact calledState_wf hw hp
  | callReg r =>
    obtain ⟨hp, rfl⟩ := exec_callLit_next (a := s.reg r) h
    rw [State.answer_mem, State.setReg_mem]
    exact calledState_wf hw hp
  | ret => rwa [exec_next h, State.answer_mem, returnedState_mem]
  | jneLitMem lit addr => rwa [exec_next h, State.answer_mem, apply_ite State.mem, State.setReg_mem, ite_self]
  | movLitReg lit d | movRegReg src d | movMemReg addr d | addRegReg a b | popReg r => rwa [exec_next h]

theorem step_mem_wf {s t : State} (hw : Memory.wf s.cfg.memSize s.mem) (h : step s = .next t) :
    Memory.wf s.cfg.memSize t.mem := by
  obtain ⟨-, rfl⟩ | ⟨o, -, ho⟩ := step_next h
  · exact hw
  · exact exec_mem_wf (s := s.setReg .ip (s.reg .ip + BitVec.ofNat 16 o.length)) hw ho

/-! ### Every fault leaves Memory -/

/-- A step faults on a byte fetch or a word access that leaves Memory, whichever of its accesses it is (spec/20_memory.md R55). -/
theorem step_fault_out {s : State} {f : Fault} (h : step s = .fault f) :
    (∃ a, f = .memOutOfRange .fetch a 1 ∧ s.byteInRange a = false) ∨
      ∃ k a, f = .memOutOfRange k a 2 ∧ s.wordInRange a = false := by
  rw [step_eq] at h
  split at h
  · split at h
    · cases h
    · split at h
      · obtain ⟨k, a, hf, ha⟩ := exec_fault_out h
        exact .inr ⟨k, a, hf, ha⟩
      · rename_i hf
        cases h
        obtain ⟨a, n, rfl, ⟨rfl, ha⟩ | ⟨rfl, ha⟩⟩ := State.operandFault_out hf
        · exact .inl ⟨a, rfl, ha⟩
        · exact .inr ⟨.fetch, a, rfl, ha⟩
  · rename_i hb
    cases h
    exact .inl ⟨_, rfl, eq_false_of_ne_true hb⟩

/-! ### The statements -/

/-- Settles O29: no step writes the parameters, and every write it makes is inside Memory. -/
theorem stepKeepsWellFormed : Obligations.StepKeepsWellFormed := by
  intro s t ⟨hc, hw⟩ h
  rw [State.wf, step_cfg h]
  exact ⟨hc, step_mem_wf hw h⟩

/-- Settles O4, from what the loader's run of byte writes leaves. -/
theorem loadPlacesTheImage : Obligations.LoadPlacesTheImage := by
  intro s image
  refine ⟨fun hs hl => ⟨_, State.load_of_fits hs hl, fun k hk => ?_, fun a ha => ?_, ?_, rfl, rfl, fun hw => ?_⟩,
    State.load_eq_none_of_too_long, State.load_eq_none_of_late⟩
  · rw [State.byteAt_setMem, ← Memory.read_writeBytes image s.mem 0 k hk, Nat.zero_add]
  · exact Memory.read_writeBytes_of_outside image s.mem (.inr (by omega))
  · exact fun r _ => State.setMem_reg s r _
  · obtain ⟨hc, hm⟩ := hw
    exact ⟨hc, Memory.writeBytes_wf hm image (by omega)⟩

/-- Settles O20, by induction on the list: the first entry is the lowest byte that is not blank. -/
theorem canonicalMemoryIsDetermined : Obligations.CanonicalMemoryIsDetermined :=
  fun _ _ _ => Memory.eq_of_read_eq

/-- Settles O31: with 65536 bytes every byte access is inside Memory, and a word access leaves it at the last address alone. -/
theorem faultsOnlyOutsideMemory : Obligations.FaultsOnlyOutsideMemory := by
  intro s k a n h
  obtain ⟨b, hf, hb⟩ | ⟨q, b, hf, hb⟩ := step_fault_out h
  · cases hf
    rw [State.byteInRange_eq_false_iff] at hb
    exact ⟨.inl ⟨rfl, rfl, hb⟩, fun hm => by have := a.isLt; omega⟩
  · cases hf
    rw [State.wordInRange_eq_false_iff] at hb
    exact ⟨.inr ⟨rfl, hb⟩, fun hm => ⟨by bv_omega, rfl⟩⟩

/-- Settles O17, from the two outcomes of the range check. -/
theorem byteRead : Obligations.ByteRead := fun _ _ _ =>
  ⟨fun h => memRead1_error (State.byteInRange_eq_false_iff.2 h), fun h => memRead1_ok (State.byteInRange_iff.2 h)⟩

/-- Settles O18: the word read is its two bytes, high byte first. -/
theorem wordRead : Obligations.WordRead := fun _ _ _ =>
  ⟨fun h => memRead2_error (State.wordInRange_eq_false_iff.2 h),
    fun h => ⟨_, memRead2_ok (State.wordInRange_iff.2 h), toNat_wordOfBytes _ _⟩⟩

/-- Settles O19, from the bytes of a written word and its frame. -/
theorem wordWrite : Obligations.WordWrite := by
  intro a v s
  refine ⟨fun h => memWrite2_error (State.wordInRange_eq_false_iff.2 h),
    fun h => ⟨_, memWrite2_ok (State.wordInRange_iff.2 h), ?_, ?_, State.keepsMemoryOutside_setMem_writeWord s a v,
      fun r _ => State.setMem_reg s r _, rfl, rfl, rfl⟩⟩
  · rw [State.byteAt_setMem_writeWord_high, toNat_highByte]
  · rw [State.byteAt_setMem_writeWord_low, toNat_lowByte]

/-- Settles O55: the store has put both bytes where `ip` fetches, and its word is inside Memory. -/
theorem nextFetchSeesTheStore : Obligations.NextFetchSeesTheStore := by
  intro s t v addr h hip
  obtain ⟨hr, rfl⟩ := exec_movLitMem_next h
  have hw : ((stored addr v s).answer .continues).wordInRange addr = true := hr
  rw [fetch_eq, fetch16_eq, hip, if_pos hw, if_pos (State.byteInRange_of_wordInRange hw), State.answer_byteAt,
    State.answer_wordAt]
  exact ⟨⟨_, congrArg (fun b => Except.ok (b, _)) (State.byteAt_setMem_writeWord_high s _ v)⟩,
    ⟨_, congrArg (fun w => Except.ok (w, _)) (Memory.readWord_writeWord s.mem _ v)⟩⟩

end Sys2Proof.Machine
end

section
/-! The statements about the encoding (spec/30_encoding.md), and the lemmas for them: the operand decoder and the operand encoder undo each other,
an assembly line is accepted exactly when it is an instruction's line, and a step on encoded bytes runs the instruction encoded. -/

namespace Sys2Proof

/-! ### The opcodes -/

/-- The five bytes are those of an opcode with two words (spec/30_encoding.md R80). -/
theorem Op.length_bounds (o : Op) : 1 ≤ o.length ∧ o.length ≤ 5 := by
  cases o <;> decide

theorem Opc.lookup_eq_none_iff {c : Opc} {b : Byte} : c.lookup b = none ↔ b ∉ c.values := by
  simp [Opc.lookup, Opc.values_eq_map]

/-- The byte values that select an opcode are the thirteen values of the map, in some order. -/
theorem Opc.legal_perm_values {c : Opc} (h : c.Distinct) :
    ((List.range 256).filter fun n => (c.lookup (BitVec.ofNat 8 n)).isSome).Perm (c.values.map BitVec.toNat) := by
  have hlegal : ∀ b : Byte, (c.lookup b).isSome = true ↔ b ∈ c.values := fun b => by
    rw [Option.isSome_iff_ne_none, Ne, Opc.lookup_eq_none_iff, not_not]
  refine (List.perm_ext_iff_of_nodup (List.nodup_range.filter _)
    (h.map fun _ _ => BitVec.eq_of_toNat_eq)).2 fun n => ?_
  rw [List.mem_filter, List.mem_range, hlegal, List.mem_map]
  constructor
  · rintro ⟨hn, hv⟩
    exact ⟨_, hv, Nat.mod_eq_of_lt hn⟩
  · rintro ⟨b, hb, rfl⟩
    rw [BitVec.ofNat_toNat, BitVec.setWidth_eq]
    exact ⟨b.isLt, hb⟩

theorem Opc.illegal_length {c : Opc} (h : c.Distinct) :
    ((List.range 256).filter fun n => (c.lookup (BitVec.ofNat 8 n)).isNone).length = 243 := by
  have hlegal := (Opc.legal_perm_values h).length_eq
  have hsum := List.length_eq_length_filter_add (l := List.range 256) fun n => (c.lookup (BitVec.ofNat 8 n)).isSome
  simp only [Option.not_isSome] at hsum
  rw [List.length_map, show c.values.length = 13 from rfl] at hlegal
  rw [List.length_range] at hsum
  omega

/-- The default values are the bytes from 0x10 to 0x1C (spec/30_encoding.md R88). -/
theorem Opc.mem_values_default {b : Byte} : b ∈ Opc.default.values ↔ 0x10 ≤ b.toNat ∧ b.toNat ≤ 0x1C := by
  simp only [Opc.values, Opc.default, List.mem_cons, List.not_mem_nil, or_false, ← BitVec.toNat_inj, BitVec.reduceToNat]
  omega

end Sys2Proof

namespace Sys2Proof.Machine

/-! ### Decoding what the encoder wrote -/

theorem decodeOperands_operandBytes (i : Instr) (rest : List Byte) :
    decodeOperands takeByte takeWord i.op (operandBytes i ++ rest) = .ok (i, rest) := by
  cases i <;>
    simp only [Instr.op, operandBytes, decodeOperands, List.append_assoc, List.cons_append, List.nil_append,
      takeWord_wordBytes, takeReg_code, bind, Except.bind, pure, Except.pure]

theorem decode_encode {c : Opc} (h : c.Distinct) (i : Instr) (rest : List Byte) :
    decode c (encode c i ++ rest) = .ok (i, rest) := by
  rw [encode, List.cons_append, decode_cons, Opc.lookup_value h]
  exact decodeOperands_operandBytes i rest

/-! ### Encoding what the decoder read -/

/-- A word taken by the first part of a decoding that succeeds: its two bytes stand at the head. -/
theorem exists_of_takeWord_bind {α : Type} {bs : List Byte} {f : Word × List Byte → Except DecodeError α} {a : α}
    (h : (takeWord bs >>= f) = .ok a) : ∃ v rest, bs = wordBytes v ++ rest ∧ f (v, rest) = .ok a := by
  match bs, h with
  | hi :: lo :: rest, h =>
    refine ⟨wordOfBytes hi lo, rest, ?_, h⟩
    rw [wordBytes, highByte_wordOfBytes, lowByte_wordOfBytes]
    rfl

/-- A register taken by the first part of a decoding that succeeds: its code byte stands at the head. -/
theorem exists_of_takeReg_bind {α : Type} {bs : List Byte} {f : Reg × List Byte → Except DecodeError α} {a : α}
    (h : (fetchReg takeByte bs >>= f) = .ok a) : ∃ b rest, bs = b :: rest ∧ f (Reg.ofCode b, rest) = .ok a := by
  match bs, h with
  | b :: rest, h => exact ⟨b, rest, rfl, h⟩

@[simp] theorem canonicalOperands_nil (bs : List Byte) : canonicalOperands [] bs = bs := by
  cases bs <;> rfl

@[simp] theorem canonicalOperands_reg (ks : List OperandKind) (b : Byte) (bs : List Byte) :
    canonicalOperands (.reg :: ks) (b :: bs) = (Reg.ofCode b).code :: canonicalOperands ks bs := by
  rw [Reg.code_ofCode]
  rfl

@[simp] theorem canonicalOperands_lit (ks : List OperandKind) (v : Word) (bs : List Byte) :
    canonicalOperands (.lit :: ks) (wordBytes v ++ bs) = wordBytes v ++ canonicalOperands ks bs := rfl

@[simp] theorem canonicalOperands_addr (ks : List OperandKind) (v : Word) (bs : List Byte) :
    canonicalOperands (.addr :: ks) (wordBytes v ++ bs) = wordBytes v ++ canonicalOperands ks bs := rfl

theorem operandBytes_of_decodeOperands {o : Op} {bs rest : List Byte} {i : Instr}
    (h : decodeOperands takeByte takeWord o bs = .ok (i, rest)) :
    operandBytes i ++ rest = canonicalOperands o.operands bs := by
  cases o with
  | movLitReg | movMemReg =>
    obtain ⟨v, bs, rfl, hd⟩ := exists_of_takeWord_bind h
    obtain ⟨d, rest, rfl, hi⟩ := exists_of_takeReg_bind hd
    cases hi
    simp [Op.operands, operandBytes]
  | movLitMem | jneLitMem =>
    obtain ⟨v, bs, rfl, ha⟩ := exists_of_takeWord_bind h
    obtain ⟨a, rest, rfl, hi⟩ := exists_of_takeWord_bind ha
    cases hi
    simp [Op.operands, operandBytes]
  | movRegReg | addRegReg =>
    obtain ⟨r, bs, rfl, hd⟩ := exists_of_takeReg_bind h
    obtain ⟨d, rest, rfl, hi⟩ := exists_of_takeReg_bind hd
    cases hi
    simp [Op.operands, operandBytes]
  | movRegMem =>
    obtain ⟨r, bs, rfl, ha⟩ := exists_of_takeReg_bind h
    obtain ⟨a, rest, rfl, hi⟩ := exists_of_takeWord_bind ha
    cases hi
    simp [Op.operands, operandBytes]
  | pshLit | callLit =>
    obtain ⟨v, rest, rfl, hi⟩ := exists_of_takeWord_bind h
    cases hi
    simp [Op.operands, operandBytes]
  | pshReg | popReg | callReg =>
    obtain ⟨r, rest, rfl, hi⟩ := exists_of_takeReg_bind h
    cases hi
    simp [Op.operands, operandBytes]
  | ret =>
    cases h
    simp [Op.operands, operandBytes]

/-- Bytes that decode begin with the value of an opcode, and its operands are decoded from the rest. -/
theorem exists_of_decode_cons {c : Opc} {b : Byte} {bs rest : List Byte} {i : Instr}
    (h : decode c (b :: bs) = .ok (i, rest)) :
    c.value i.op = b ∧ decodeOperands takeByte takeWord i.op bs = .ok (i, rest) := by
  rw [decode_cons] at h
  cases hl : c.lookup b with
  | none =>
    rw [hl] at h
    cases h
  | some o =>
    rw [hl] at h
    rw [decodeOperands_op h]
    exact ⟨Opc.value_of_lookup hl, h⟩

theorem encode_of_decode {c : Opc} {b : Byte} {bs rest : List Byte} {i : Instr} (h : decode c (b :: bs) = .ok (i, rest)) :
    encode c i ++ rest = b :: canonicalOperands i.op.operands bs := by
  obtain ⟨hb, ho⟩ := exists_of_decode_cons h
  rw [encode, List.cons_append, hb, operandBytes_of_decodeOperands ho]

/-! ### Lengths -/

theorem encode_length (c : Opc) (i : Instr) : (encode c i).length = i.length := by
  cases i with
  | movLitReg lit d => exact Laws.EncodeLength.movLitReg lit d c
  | movLitMem lit addr => exact Laws.EncodeLength.movLitMem lit addr c
  | movRegReg src d => exact Laws.EncodeLength.movRegReg src d c
  | movRegMem src addr => exact Laws.EncodeLength.movRegMem src addr c
  | movMemReg addr d => exact Laws.EncodeLength.movMemReg addr d c
  | addRegReg a b => exact Laws.EncodeLength.addRegReg a b c
  | jneLitMem lit addr => exact Laws.EncodeLength.jneLitMem lit addr c
  | pshLit lit => exact Laws.EncodeLength.pshLit lit c
  | pshReg r => exact Laws.EncodeLength.pshReg r c
  | popReg r => exact Laws.EncodeLength.popReg r c
  | callLit addr => exact Laws.EncodeLength.callLit addr c
  | callReg r => exact Laws.EncodeLength.callReg r c
  | ret => exact Laws.EncodeLength.ret c

/-! ### Assembly lines -/

theorem assembleLine_instrLine (i : Instr) : assembleLine (instrLine i) = some i := by
  cases i <;> rfl

theorem instrLine_of_oneOperandLine {m : Mnemonic} {a : AsmOperand} {i : Instr} (h : oneOperandLine m a = some i) :
    ⟨m, [a]⟩ = instrLine i := by
  unfold oneOperandLine at h
  split at h <;> cases h <;> rfl

theorem instrLine_of_twoOperandLine {m : Mnemonic} {a b : AsmOperand} {i : Instr} (h : twoOperandLine m a b = some i) :
    ⟨m, [a, b]⟩ = instrLine i := by
  unfold twoOperandLine at h
  split at h <;> cases h <;> rfl

theorem eq_instrLine_of_assembleLine {l : AsmLine} {i : Instr} (h : assembleLine l = some i) : l = instrLine i := by
  match l, h with
  | ⟨.ret, []⟩, rfl => rfl
  | ⟨_, [_]⟩, h => exact instrLine_of_oneOperandLine h
  | ⟨_, [_, _]⟩, h => exact instrLine_of_twoOperandLine h

/-- Lines that are all accepted are the lines of instructions. -/
theorem exists_eq_map_instrLine {ls : List AsmLine} (h : ∀ l ∈ ls, assembleLine l ≠ none) :
    ∃ is : List Instr, ls = is.map instrLine := by
  refine ⟨ls.filterMap assembleLine, ?_⟩
  induction ls with
  | nil => rfl
  | cons l ls ih =>
    obtain ⟨hl, hls⟩ := List.forall_mem_cons.1 h
    obtain ⟨i, hi⟩ := Option.ne_none_iff_exists'.1 hl
    rw [List.filterMap_cons_some hi, List.map_cons, ← eq_instrLine_of_assembleLine hi, ← ih hls]

theorem assemble_map_instrLine (c : Opc) (is : List Instr) :
    assemble c (is.map instrLine) = some (is.flatMap (encode c)) := by
  induction is with
  | nil => rfl
  | cons i is ih => rw [List.map_cons, assemble, assembleLine_instrLine, ih, List.flatMap_cons]

theorem assemble_eq_none {c : Opc} {ls : List AsmLine} {l : AsmLine} (hl : l ∈ ls) (h : assembleLine l = none) :
    assemble c ls = none := by
  induction hl with
  | head ls => rw [assemble, h]
  | tail k _ ih =>
    rw [assemble, ih]
    cases assembleLine k <;> rfl

/-- A list of lines has bytes only when every line is accepted. -/
theorem ne_none_of_assemble {c : Opc} {ls : List AsmLine} {bs : List Byte} (h : assemble c ls = some bs) :
    ∀ l ∈ ls, assembleLine l ≠ none :=
  fun _ hl hn => Option.some_ne_none bs (h.symm.trans (assemble_eq_none hl hn))

theorem decodesAs_flatMap_encode {c : Opc} (h : c.Distinct) (is : List Instr) (rest : List Byte) :
    decodesAs c (is.flatMap (encode c) ++ rest) is rest := by
  induction is with
  | nil => rfl
  | cons i is ih =>
    rw [List.flatMap_cons, List.append_assoc]
    exact ⟨_, decode_encode h i _, ih⟩

theorem flatMap_encode_length (c : Opc) (is : List Instr) :
    (is.flatMap (encode c)).length = (is.map Instr.length).sum := by
  rw [List.length_flatMap]
  simp only [encode_length]

/-! ### Literals -/

theorem literalOfDigits_isSome_iff {ds : List (Fin 16)} :
    (literalOfDigits ds).isSome ↔ ds.length = 1 ∨ ds.length = 2 ∨ ds.length = 4 := by
  match ds with
  | [] | [_] | [_, _] | [_, _, _] | [_, _, _, _] => simp [literalOfDigits]
  | _ :: _ :: _ :: _ :: _ :: ds =>
    have hlen : ds.length + 5 ≠ 1 ∧ ds.length + 5 ≠ 2 ∧ ds.length + 5 ≠ 4 := by omega
    simp [literalOfDigits, hlen]

/-- The digits of an admitted literal stand for a value below 65536, so that none of it is lost (spec/30_encoding.md R100). -/
theorem toNat_of_literalOfDigits {ds : List (Fin 16)} {v : Word} (h : literalOfDigits ds = some v) :
    v.toNat = ds.foldl (fun n d => n * 16 + d.val) 0 := by
  match ds, h with
  | [_], rfl | [_, _], rfl | [_, _, _, _], rfl =>
    simp only [List.foldl_cons, List.foldl_nil, BitVec.toNat_ofNat]
    omega

/-! ### The step on encoded bytes -/

theorem State.bytesFrom_add (s : State) (a : Word) (m n : Nat) :
    s.bytesFrom a (m + n) = s.bytesFrom a m ++ s.bytesFrom (a + BitVec.ofNat 16 m) n := by
  induction m generalizing a with
  | zero => simp [State.bytesFrom]
  | succ m ih =>
    rw [Nat.succ_add, State.bytesFrom, State.bytesFrom, ih, List.cons_append, BitVec.add_assoc, Nat.add_comm m,
      BitVec.ofNat_add]
    rfl

theorem operandBytes_length_le (i : Instr) : (operandBytes i).length ≤ 4 := by
  have h : (operandBytes i).length + 1 = i.length := encode_length Opc.default i
  have := i.op.length_bounds
  rw [Instr.length] at h
  omega

/-- The operand bytes at an address determine the instruction that is read there. -/
theorem State.instrAt_eq_of_operandBytes {s : State} (hm : s.cfg.memSize ≤ 65536) {a : Word} {i : Instr}
    (hb : s.bytesFrom a (operandBytes i).length = operandBytes i) (hf : s.operandFault a i.op.operands = none) :
    s.instrAt a i.op = i := by
  obtain ⟨n, hn⟩ := Nat.exists_eq_add_of_le (operandBytes_length_le i)
  obtain ⟨rest, hd⟩ := decodeOperands_bytesFrom hm hf
  rw [hn, State.bytesFrom_add, hb, decodeOperands_operandBytes] at hd
  exact (congrArg Prod.fst (Except.ok.inj hd)).symm

/-- A step whose opcode byte is legal and whose operand fetches lie in Memory runs the instruction there. -/
theorem step_of_legal {s : State} {o : Op} (hip : s.byteInRange (s.reg .ip) = true)
    (hl : s.cfg.opc.lookup (s.byteAt (s.reg .ip).toNat) = some o) (hf : s.operandFault (s.reg .ip + 1) o.operands = none) :
    step s = exec (s.instrAt (s.reg .ip + 1) o) (s.setReg .ip (s.reg .ip + BitVec.ofNat 16 o.length)) := by
  rw [step_eq, if_pos hip, hl]
  simp only [hf]

theorem step_of_encoded {s : State} {i : Instr} (hc : s.cfg.wf) (hip : s.byteInRange (s.reg .ip) = true)
    (hb : s.bytesFrom (s.reg .ip) i.length = encode s.cfg.opc i)
    (hf : s.operandFault (s.reg .ip + 1) i.op.operands = none) :
    step s = exec i (s.setReg .ip (s.reg .ip + BitVec.ofNat 16 i.length)) := by
  obtain ⟨-, -, hm, hd, -⟩ := hc
  have hlen : i.length = (operandBytes i).length + 1 := (encode_length s.cfg.opc i).symm
  rw [hlen, State.bytesFrom, encode] at hb
  obtain ⟨hop, hrest⟩ := List.cons.inj hb
  rw [step_of_legal hip (hop ▸ Opc.lookup_value hd i.op) hf, State.instrAt_eq_of_operandBytes hm hrest hf]
  rfl

/-! ### The statements -/

/-- Settles O8: the opcode byte selects the opcode, and its operand decoder reads the operand bytes back. -/
theorem decodeOfEncode : Obligations.DecodeOfEncode := fun _ i rest h => decode_encode h i rest

/-- Settles O9: each operand decoder has read a word's own bytes or a register code, known modulo 12. -/
theorem encodeOfDecode : Obligations.EncodeOfDecode := fun _ _ _ _ _ => encode_of_decode

/-- Settles O13: lines that have bytes are the lines of instructions, and each encoding decodes whatever follows it. -/
theorem assembledProgramDecodes : Obligations.AssembledProgramDecodes := by
  intro c ls rest hc
  refine ⟨fun bs hbs => ?_, fun ⟨l, hl, hn⟩ => assemble_eq_none hl hn⟩
  obtain ⟨is, rfl⟩ := exists_eq_map_instrLine (ne_none_of_assemble hbs)
  rw [assemble_map_instrLine] at hbs
  cases hbs
  exact ⟨is, rfl, decodesAs_flatMap_encode hc is rest, flatMap_encode_length c is⟩

/-- Settles O56: accepted lines are the lines of instructions, and these have bytes. -/
theorem acceptedProgramsHaveBytes : Obligations.AcceptedProgramsHaveBytes := by
  intro c ls h
  obtain ⟨is, rfl⟩ := exists_eq_map_instrLine h
  refine ⟨is, ?_, assemble_map_instrLine c is⟩
  rw [List.map_map]
  exact List.map_congr_left fun i _ => assembleLine_instrLine i

/-- Settles O15: the legal byte values are the thirteen distinct values of the map. -/
theorem illegalOpcodeCount : Obligations.IllegalOpcodeCount := by
  refine ⟨fun c ⟨hd, h0⟩ => ⟨Opc.illegal_length hd, Opc.lookup_eq_none_iff.2 h0⟩, fun b => ?_⟩
  rw [Opc.lookup_eq_none_iff, Opc.mem_values_default]
  omega

/-- Settles O24: the encoded operand bytes determine the instruction that the step decodes. -/
theorem stepRunsTheEncodedInstruction : Obligations.StepRunsTheEncodedInstruction := fun _ _ => step_of_encoded

/-- Settles O10: the format's length, from one to five bytes. -/
theorem encodedLengths : Obligations.EncodedLengths := fun c i => ⟨encode_length c i, i.op.length_bounds⟩

/-- Settles O11: each listing is what the encoder writes for its instruction under the default map. -/
theorem listedBytesDecode : Obligations.ListedBytesDecode := by
  have h (i : Instr) : decode Opc.default (encode Opc.default i ++ []) = .ok (i, []) := decode_encode (by decide) i []
  exact ⟨h (.movLitReg 0x1234 .r1), h (.movLitMem 0x1234 0x0100), h (.movRegReg .r1 .r2), h (.movRegMem .r1 0x0100),
    h (.movMemReg 0x0100 .r1), h (.addRegReg .r1 .r2), h (.jneLitMem 0x0005 0x0000), h (.pshLit 0x0042), h (.pshReg .r1),
    h (.popReg .r1), h (.callLit 0x0020), h (.callReg .r3), h .ret⟩

/-- Settles O12, by the rows of the line table. -/
theorem linesNameInstructions : Obligations.LinesNameInstructions :=
  ⟨assembleLine_instrLine, fun _ _ => eq_instrLine_of_assembleLine⟩

/-- Settles O14, by the number of digits. -/
theorem literalsTakeTwoBytes : Obligations.LiteralsTakeTwoBytes := fun _ =>
  ⟨literalOfDigits_isSome_iff, fun v h => ⟨toNat_of_literalOfDigits h, Laws.EncodeLength.pshLit v⟩⟩

/-- Settles O16: a code byte and its value modulo 12, the canonical code, name one register. -/
theorem registerCodesReduceModulo12 : Obligations.RegisterCodesReduceModulo12 := by
  refine ⟨fun b => Reg.position_ofPosition (Nat.mod_lt _ (by decide)), fun r => ⟨Reg.ofCode_code r, ?_⟩, fun b _ => ⟨_, rfl, ?_⟩⟩
  · cases r <;> decide
  · rw [← Reg.code_ofCode, Reg.ofCode_code]

end Sys2Proof.Machine
end

section
/-! The statements about fetch, decode and the run loop (spec/40_fetch_decode.md), and the lemmas for them: what each outcome of a step comes from, the
instruction that the bytes at `ip` decode to, and the run loop and its callback, one step at a time. -/

namespace Sys2Proof.Machine

/-! ### Where the outcomes of a step come from -/

theorem step_of_opcode_fault {s : State} (hip : s.byteInRange (s.reg .ip) = false) :
    step s = .fault (.memOutOfRange .fetch (s.reg .ip) 1) := by
  rw [step, fetchInstr_opcode_fault hip]

theorem step_of_illegal {s : State} (hip : s.byteInRange (s.reg .ip) = true)
    (hl : s.cfg.opc.lookup (s.byteAt (s.reg .ip).toNat) = none) : step s = .next (s.setReg .ip (s.reg .ip + 1)).halt := by
  rw [step, fetchInstr_illegal hip hl]

theorem step_of_operandFault {s : State} {o : Op} {f : Fault} (hip : s.byteInRange (s.reg .ip) = true)
    (hl : s.cfg.opc.lookup (s.byteAt (s.reg .ip).toNat) = some o)
    (hf : s.operandFault (s.reg .ip + 1) o.operands = some f) : step s = .fault f := by
  rw [step_eq, if_pos hip, hl]
  simp only [hf]

theorem step_ne_refused (s : State) (r : Refusal) : step s ≠ .refused r := by
  rw [step_eq]
  split
  · split
    · nofun
    · split
      · exact exec_ne_refused _ _ r
      · nofun
  · nofun

theorem exec_lastStatus {i : Instr} {s t : State} (h : exec i s = .next t) : t.lastStatus = some .continues := by
  obtain ⟨x, hx⟩ := exec_eq_finish i s
  rw [hx] at h
  cases x <;> cases h
  rfl

theorem step_lastStatus_of_legal {s t : State} (h : step s = .next t)
    (hl : s.cfg.opc.lookup (s.byteAt (s.reg .ip).toNat) ≠ none) : t.lastStatus = some .continues := by
  obtain ⟨hn, -⟩ | ⟨o, -, ho⟩ := step_next h
  · exact absurd hn hl
  · exact exec_lastStatus ho

theorem step_lastStatus_of_illegal {s t : State} (h : step s = .next t)
    (hl : s.cfg.opc.lookup (s.byteAt (s.reg .ip).toNat) = none) : t.lastStatus = some .halts := by
  obtain ⟨-, rfl⟩ | ⟨o, ho, -⟩ := step_next h
  · exact State.halt_lastStatus _
  · rw [hl] at ho
    cases ho

/-! ### The instruction decoded from the bytes at `ip` -/

/-- Bytes at an address that decode begin with a byte that selects the instruction's opcode, and its operands are decoded from the rest. -/
theorem State.lookup_of_decode {s : State} {a : Word} {i : Instr} {rest : List Byte} (hd : s.cfg.opc.Distinct)
    (h : decode s.cfg.opc (s.bytesFrom a 5) = .ok (i, rest)) :
    s.cfg.opc.lookup (s.byteAt a.toNat) = some i.op ∧
      decodeOperands takeByte takeWord i.op (s.bytesFrom (a + 1) 4) = .ok (i, rest) := by
  obtain ⟨hb, ho⟩ := exists_of_decode_cons h
  exact ⟨hb ▸ Opc.lookup_value hd i.op, ho⟩

/-- The decoder of plain bytes and the fetch through `ip` read the same instruction. -/
theorem State.instrAt_eq_of_decodeOperands {s : State} (hm : s.cfg.memSize ≤ 65536) {a : Word} {i : Instr} {rest : List Byte}
    (h : decodeOperands takeByte takeWord i.op (s.bytesFrom a 4) = .ok (i, rest))
    (hf : s.operandFault a i.op.operands = none) : s.instrAt a i.op = i := by
  obtain ⟨rest', h'⟩ := decodeOperands_bytesFrom hm hf
  exact congrArg Prod.fst (Except.ok.inj (h'.symm.trans h))

theorem step_of_decoded {s : State} {i : Instr} {rest : List Byte} (hc : s.cfg.wf) (hip : s.byteInRange (s.reg .ip) = true)
    (h : decode s.cfg.opc (s.bytesFrom (s.reg .ip) 5) = .ok (i, rest))
    (hf : s.operandFault (s.reg .ip + 1) i.op.operands = none) :
    step s = exec i (s.setReg .ip (s.reg .ip + BitVec.ofNat 16 i.length)) := by
  obtain ⟨-, -, hm, hd, -⟩ := hc
  obtain ⟨hl, ho⟩ := State.lookup_of_decode hd h
  rw [step_of_legal hip hl hf, State.instrAt_eq_of_decodeOperands hm ho hf]
  rfl

/-! ### The word a push leaves -/

/-- A push puts its word where `sp` pointed (spec/44_stack.md R160). -/
theorem pushed_wordAt_sp (v : Word) (s : State) : (pushed v s).wordAt (s.reg .sp).toNat = v :=
  Memory.readWord_writeWord s.mem _ v

/-! ### The run loop and its callback -/

theorem run_of_halt {s t : State} (h : step s = .next t) (ht : t.lastStatus = some .halts) (n : Nat) :
    run (n + 1) s = .halted t := by
  rw [run, h]
  exact if_pos ht

theorem run_of_not_halt {s t : State} (h : step s = .next t) (ht : t.lastStatus ≠ some .halts) (n : Nat) :
    run (n + 1) s = run n t := by
  rw [run, h]
  exact if_neg ht

/-- A run that halts does so at its first step, or its first step goes on and the run from there halts. -/
theorem run_succ_halted {n : Nat} {s t : State} (h : run (n + 1) s = .halted t) :
    (step s = .next t ∧ t.lastStatus = some .halts) ∨
      ∃ u, step s = .next u ∧ u.lastStatus ≠ some .halts ∧ run n u = .halted t := by
  cases hs : step s with
  | fault f | refused r =>
    rw [run, hs] at h
    cases h
  | next u =>
    by_cases hu : u.lastStatus = some .halts
    · rw [run_of_halt hs hu] at h
      cases h
      exact .inl ⟨rfl, hu⟩
    · rw [run_of_not_halt hs hu] at h
      exact .inr ⟨u, rfl, hu, h⟩

/-- The step at which a run halts (R117). -/
theorem exists_halting_step {n : Nat} {s t : State} (h : run n s = .halted t) :
    ∃ k u, k < n ∧ run k s = .running u ∧ step u = .next t ∧ t.lastStatus = some .halts := by
  induction n generalizing s with
  | zero => cases h
  | succ n ih =>
    obtain ⟨hs, ht⟩ | ⟨v, hs, hv, hr⟩ := run_succ_halted h
    · exact ⟨0, s, n.succ_pos, rfl, hs, ht⟩
    · obtain ⟨k, u, hk, hu, hstep⟩ := ih hr
      exact ⟨k + 1, u, Nat.succ_lt_succ hk, (run_of_not_halt hs hv k).trans hu, hstep⟩

theorem run_halted_mono {n m : Nat} {s t : State} (h : run n s = .halted t) (hm : n ≤ m) : run m s = .halted t := by
  induction n generalizing s m with
  | zero => cases h
  | succ n ih =>
    obtain ⟨m, rfl⟩ := Nat.exists_eq_add_of_le' hm
    obtain ⟨hs, ht⟩ | ⟨u, hs, hu, hr⟩ := run_succ_halted h
    · exact run_of_halt hs ht (m + n)
    · exact (run_of_not_halt hs hu (m + n)).trans (ih hr (Nat.le_add_left n m))

theorem runTrace_of_halt {s t : State} (h : step s = .next t) (ht : t.lastStatus = some .halts) (n : Nat) :
    runTrace (n + 1) s = [t] := by
  rw [runTrace, h]
  exact if_pos ht

theorem runTrace_of_not_halt {s t : State} (h : step s = .next t) (ht : t.lastStatus ≠ some .halts) (n : Nat) :
    runTrace (n + 1) s = t :: runTrace n t := by
  rw [runTrace, h]
  exact if_neg ht

/-- The callback of a run that halts is shown the final state last, and no halt before it. -/
theorem runTrace_of_halted {n : Nat} {s t : State} (h : run n s = .halted t) :
    ∃ us, runTrace n s = us ++ [t] ∧ ∀ u ∈ us, u.lastStatus ≠ some .halts := by
  induction n generalizing s with
  | zero => cases h
  | succ n ih =>
    obtain ⟨hs, ht⟩ | ⟨v, hs, hv, hr⟩ := run_succ_halted h
    · exact ⟨[], runTrace_of_halt hs ht n, nofun⟩
    · obtain ⟨us, htrace, hus⟩ := ih hr
      refine ⟨v :: us, ?_, List.forall_mem_cons.2 ⟨hv, hus⟩⟩
      rw [runTrace_of_not_halt hs hv, htrace, List.cons_append]

/-- Each state shown to the callback, of any run, is the next state of the one before it, the first of the state the run began in. -/
theorem step_of_runTrace {n k : Nat} {s u : State} (h : (runTrace n s)[k]? = some u) :
    ∃ r, (s :: runTrace n s)[k]? = some r ∧ step r = .next u := by
  induction n generalizing s k with
  | zero => cases h
  | succ n ih =>
    cases hs : step s with
    | fault f | refused r =>
      rw [runTrace, hs] at h
      cases h
    | next t =>
      by_cases ht : t.lastStatus = some .halts
      · rw [runTrace_of_halt hs ht] at h
        match k, h with
        | 0, rfl => exact ⟨s, rfl, hs⟩
      · rw [runTrace_of_not_halt hs ht] at h ⊢
        cases k with
        | zero =>
          cases h
          exact ⟨s, rfl, hs⟩
        | succ k => exact ih h

/-! ### The statements -/

/-- Settles O5, by induction on the budget: a step that goes on hands the rest of the budget to the state it leaves. -/
theorem runStopsAtTheFirstHalt : Obligations.RunStopsAtTheFirstHalt :=
  fun _ _ _ h => ⟨exists_halting_step h, fun _ => run_halted_mono h⟩

/-- Settles O6, from what the callback is shown last and from how each state it is shown follows from the one before. -/
theorem callbackSeesEachStep : Obligations.CallbackSeesEachStep := by
  intro n s t h
  obtain ⟨us, htrace, hus⟩ := runTrace_of_halted h
  exact ⟨us, htrace, hus, fun _ _ => step_of_runTrace⟩

/-- Settles O25: the opcode byte of bytes that decode is legal, so the step comes to its operand fetches. -/
theorem stepFaultsWhenAFetchLeavesMemory : Obligations.StepFaultsWhenAFetchLeavesMemory := by
  refine fun s => ⟨step_of_opcode_fault, fun i rest f ⟨_, _, _, hd, _⟩ hip h hf => ?_⟩
  obtain ⟨hl, -⟩ := State.lookup_of_decode hd h
  exact step_of_operandFault hip hl hf

/-- Settles O26: the next state is that of the opcode fetch with the status `halt`, which no step reads. -/
theorem illegalOpcodeHalts : Obligations.IllegalOpcodeHalts := by
  intro s hip hl
  have hs := step_of_illegal hip hl
  refine ⟨_, hs, ?_, fun r hr => ?_, rfl, rfl, fun _ => rfl, rfl, run_of_halt hs rfl, step_withStatus _⟩
  · rw [State.halt_reg, State.reg_setReg_self]
  · rw [State.halt_reg, State.reg_setReg_ne _ _ _ _ (List.ne_of_not_mem_cons hr)]

/-- Settles O28: an instruction ends in `continue` or a fault, and only an illegal opcode byte gives a next state without one. -/
theorem onlyIllegalOpcodesHalt : Obligations.OnlyIllegalOpcodesHalt := by
  refine ⟨fun _ _ _ => exec_lastStatus, fun s t h => ?_, fun s => ?_⟩
  · by_cases hl : s.cfg.opc.lookup (s.byteAt (s.reg .ip).toNat) = none
    · simp [step_lastStatus_of_illegal h hl, hl]
    · simp [step_lastStatus_of_legal h hl, hl]
  · cases hs : step s with
    | next t => exact .inl ⟨t, rfl⟩
    | fault f =>
      obtain ⟨k, a, n⟩ := f
      exact .inr ⟨k, a, n, rfl⟩
    | refused r => exact absurd hs (step_ne_refused s r)

/-- Settles O21, from the two outcomes of each range check. -/
theorem fetchPrimitives : Obligations.FetchPrimitives := by
  intro s
  rw [fetch_eq, fetch16_eq]
  exact ⟨fun h => ⟨_, if_pos h, rfl⟩, fun h => if_neg (ne_true_of_eq_false h), fun h => ⟨_, if_pos h, rfl⟩,
    fun h => if_neg (ne_true_of_eq_false h)⟩

/-- Settles O22: a remainder modulo 12 is the position of a register, and a write of another register leaves `ip` and Memory alone. -/
theorem fetchRegisterIndexIsTotal : Obligations.FetchRegisterIndexIsTotal := by
  intro s
  have hlt (b : Byte) : b.toNat % 12 < 12 := Nat.mod_lt _ (by decide)
  have hpos (b : Byte) : (Reg.ofCode b).position = b.toNat % 12 := Reg.position_ofPosition (hlt b)
  refine ⟨fun h => ⟨_, (fetchRegisterIndex_eq s).trans (if_pos h), hpos _, hpos _ ▸ hlt _, fun q v hq => ?_⟩,
    fun h => (fetchRegisterIndex_eq s).trans (if_neg (ne_true_of_eq_false h))⟩
  rw [fetchRegisterIndex, fetchRegisterIndex_eq, State.reg_setReg_ne _ _ _ _ hq.symm]
  exact ⟨_, if_pos h⟩

/-- Settles O23: the decoder of plain bytes and the fetch through `ip` read one instruction. -/
theorem stepRunsTheDecodedInstruction : Obligations.StepRunsTheDecodedInstruction := fun _ _ _ => step_of_decoded

/-- Settles O54: the instruction runs in the state whose `ip` is already past it. -/
theorem sourceIpIsTheNextInstruction : Obligations.SourceIpIsTheNextInstruction := by
  refine fun s rest hc hip => ⟨fun d h hf => ?_, fun h hf hsp => ?_⟩
  · have hs : step s = exec (.movRegReg .ip d) (s.setReg .ip (s.reg .ip + 3)) := step_of_decoded hc hip h hf
    rw [exec_movRegReg, State.reg_setReg_self] at hs
    refine ⟨_, hs, ?_, ?_⟩
    · rw [State.answer_reg, State.reg_setReg_self]
    · rw [State.answer_reg, State.reg_setReg, State.reg_setReg_self, ite_self]
  · have hs : step s = exec (.pshReg .ip) (s.setReg .ip (s.reg .ip + 2)) := step_of_decoded hc hip h hf
    have hsp' : (s.setReg .ip (s.reg .ip + 2)).reg .sp = s.reg .sp := State.reg_setReg_ne _ _ _ _ (by decide)
    rw [exec_pshReg, hsp', State.reg_setReg_self, State.setReg_wordInRange, if_pos hsp] at hs
    refine ⟨_, hs, ?_, ?_⟩
    · rw [State.answer_wordAt, ← hsp', pushed_wordAt_sp]
    · rw [State.answer_reg, pushed_reg (by decide), State.reg_setReg_self]

end Sys2Proof.Machine
end

section
/-! The statements about the five MOV instructions (spec/41_mov.md), and the lemmas for them: what a completed register write and a completed word
store show and keep. -/

namespace Sys2Proof.Machine

/-! ### A completed register write -/

/-- An instruction that ends with one register write changes that register and nothing else (spec/41_mov.md R135). -/
theorem setReg_answer_frame (s : State) (d : Reg) (v : Word) :
    s.keepsRegs ((s.setReg d v).answer .continues) [d] ∧ ((s.setReg d v).answer .continues).fsz = s.fsz ∧
      s.keepsMemory ((s.setReg d v).answer .continues) ∧ s.continuesTo ((s.setReg d v).answer .continues) := by
  refine ⟨fun r hr => ?_, rfl, fun _ => rfl, rfl, rfl⟩
  rw [State.answer_reg, State.reg_setReg_ne _ _ _ _ (List.ne_of_not_mem_cons hr)]

theorem setReg_answer_reg_self (s : State) (d : Reg) (v : Word) : ((s.setReg d v).answer .continues).reg d = v := by
  rw [State.answer_reg, State.reg_setReg_self]

/-! ### A completed word store -/

theorem toNat_stored_byteAt_high (a v : Word) (s : State) : ((stored a v s).byteAt a.toNat).toNat = v.toNat / 256 := by
  rw [stored, State.byteAt_setMem_writeWord_high, toNat_highByte]

theorem toNat_stored_byteAt_low (a v : Word) (s : State) :
    ((stored a v s).byteAt (a.toNat + 1)).toNat = v.toNat % 256 := by
  rw [stored, State.byteAt_setMem_writeWord_low, toNat_lowByte]

/-- An instruction that ends with a word store changes that word of Memory and nothing else (spec/20_memory.md R54). -/
theorem stored_answer_frame (a v : Word) (s : State) :
    s.keepsMemoryOutside ((stored a v s).answer .continues) [a] ∧ s.keepsRegs ((stored a v s).answer .continues) [] ∧
      ((stored a v s).answer .continues).fsz = s.fsz ∧ s.continuesTo ((stored a v s).answer .continues) := by
  refine ⟨State.keepsMemoryOutside_setMem_writeWord s a v, fun r _ => ?_, rfl, rfl, rfl⟩
  rw [State.answer_reg, stored_reg]

/-- A register's store is the store of the word it holds (spec/41_mov.md R133). -/
theorem exec_movRegMem_eq_movLitMem (src : Reg) (addr : Word) (s : State) :
    exec (.movRegMem src addr) s = exec (.movLitMem (s.reg src) addr) s := by
  rw [exec_movRegMem, exec_movLitMem]

/-! ### The statements -/

/-- Settles O33: both forms end with one write of the destination, of the literal or of the source's word. -/
theorem movIntoRegister : Obligations.MovIntoRegister := fun s d =>
  ⟨fun lit => ⟨_, exec_movLitReg lit d s, setReg_answer_reg_self s d lit, setReg_answer_frame s d lit⟩,
    fun src => ⟨_, exec_movRegReg src d s, setReg_answer_reg_self s d (s.reg src), setReg_answer_frame s d (s.reg src)⟩⟩

/-- Settles O34: both forms are one word store, which completes exactly when its word lies in Memory. -/
theorem movIntoMemory : Obligations.MovIntoMemory := by
  intro s addr v i hi
  have hx : exec i s = exec (.movLitMem v addr) s := by
    obtain rfl | ⟨src, rfl, rfl⟩ := hi
    · rfl
    · exact exec_movRegMem_eq_movLitMem src addr s
  rw [hx, exec_movLitMem]
  exact ⟨fun hr => ⟨_, if_pos hr, toNat_stored_byteAt_high addr v s, toNat_stored_byteAt_low addr v s,
    stored_answer_frame addr v s⟩, fun hr => if_neg (ne_true_of_eq_false hr)⟩

/-- Settles O35: the load is a range check, and then one write of the destination with the word read. -/
theorem movFromMemory : Obligations.MovFromMemory := by
  intro s addr d
  rw [exec_movMemReg]
  refine ⟨fun hr => ⟨_, if_pos hr, ?_, setReg_answer_frame s d _⟩, fun hr => if_neg (ne_true_of_eq_false hr)⟩
  rw [setReg_answer_reg_self]
  exact toNat_wordOfBytes _ _

end Sys2Proof.Machine
end

section
/-! The statements about the integer arithmetic (spec/42_add.md): the sum of ADD and the comparison of JNE, as laws of words. -/

namespace Sys2Proof.Machine

/-- The comparison is inequality, not an ordering (spec/42_add.md R142). -/
@[simp] theorem wordsDiffer_eq_true_iff (a b : Word) : wordsDiffer a b = true ↔ a ≠ b := decide_eq_true_iff

/-- Settles O36: ADD ends with one write of `acc`, of the sum of two words, and the sum of two words is modulo 2 ^ 16. -/
theorem addIntoAcc : Obligations.AddIntoAcc := by
  refine fun s a b => ⟨_, exec_addRegReg a b s, ?_, setReg_answer_frame s .acc _⟩
  rw [setReg_answer_reg_self]
  exact BitVec.toNat_add (s.reg a) (s.reg b)

/-- Settles O38: two words with the same sixteen bits are one word, so two that differ do so in some bit. -/
theorem jneComparesEveryBit : Obligations.JneComparesEveryBit := by
  intro a b
  rw [wordsDiffer_eq_true_iff]
  constructor
  · contrapose!
    exact BitVec.eq_of_getLsbD_eq
  · rintro ⟨k, -, hk⟩ rfl
    exact hk rfl

end Sys2Proof.Machine
end

section
/-! The statement about the conditional jump (spec/43_jne.md): JNE taken and not taken. -/

namespace Sys2Proof.Machine

/-- The literal is `acc`, so the jump is not taken (spec/43_jne.md R150). -/
theorem exec_jneLitMem_of_eq {lit : Word} {s : State} (h : lit = s.reg .acc) (addr : Word) :
    exec (.jneLitMem lit addr) s = .next (s.answer .continues) := by
  rw [exec_jneLitMem, if_pos h]

/-- The jump is taken, and it is one write of `ip`, of the operand itself (spec/43_jne.md R151). -/
theorem exec_jneLitMem_of_ne {lit : Word} {s : State} (h : lit ≠ s.reg .acc) (addr : Word) :
    exec (.jneLitMem lit addr) s = .next ((s.setReg .ip addr).answer .continues) := by
  rw [exec_jneLitMem, if_neg h]

/-- Settles O37: a jump taken ends with one write of `ip`, and a jump not taken with none. -/
theorem jneJumpsOnInequality : Obligations.JneJumpsOnInequality := by
  intro s lit addr
  by_cases h : lit = s.reg .acc
  · exact ⟨_, exec_jneLitMem_of_eq h addr, absurd h, fun _ => State.answer_reg .., fun _ _ => State.answer_reg ..,
      rfl, fun _ => rfl, rfl, rfl⟩
  · exact ⟨_, exec_jneLitMem_of_ne h addr, fun _ => setReg_answer_reg_self s .ip addr, (absurd · h),
      setReg_answer_frame s .ip addr⟩

end Sys2Proof.Machine
end

section
/-! The statements about the stack (spec/44_stack.md), and the lemmas for them: what a completed push and a completed pop show and keep, and that
a pop takes back what a push did. -/

namespace Sys2Proof.Machine

/-! ### A completed push -/

theorem toNat_pushed_byteAt_high (v : Word) (s : State) :
    ((pushed v s).byteAt (s.reg .sp).toNat).toNat = v.toNat / 256 := toNat_stored_byteAt_high (s.reg .sp) v s

theorem toNat_pushed_byteAt_low (v : Word) (s : State) :
    ((pushed v s).byteAt ((s.reg .sp).toNat + 1)).toNat = v.toNat % 256 := toNat_stored_byteAt_low (s.reg .sp) v s

/-- Of the registers a push writes `sp` alone (spec/44_stack.md R160). -/
theorem pushed_keepsRegs (v : Word) (s : State) : s.keepsRegs (pushed v s) [.sp] :=
  fun _ hr => pushed_reg (List.ne_of_not_mem_cons hr) v s

/-- Of Memory a push writes the word at the old `sp` alone (R160). -/
theorem pushed_keepsMemoryOutside (v : Word) (s : State) : s.keepsMemoryOutside (pushed v s) [s.reg .sp] :=
  State.keepsMemoryOutside_setMem_writeWord s (s.reg .sp) v

/-- PSH of a register is PSH of the word it holds before the push (R165). -/
theorem exec_pshReg_eq_pshLit (r : Reg) (s : State) : exec (.pshReg r) s = exec (.pshLit (s.reg r)) s := by
  rw [exec_pshReg, exec_pshLit]

theorem exec_pshLit_of_inRange {s : State} (h : s.wordInRange (s.reg .sp) = true) (v : Word) :
    exec (.pshLit v) s = .next ((pushed v s).answer .continues) := by
  rw [exec_pshLit, if_pos h]

/-! ### A completed pop -/

/-- Of the registers a pop writes `sp` and the register it pops into, and no other (R166). -/
theorem popped_setReg_keepsRegs (r : Reg) (w : Word) (s : State) : s.keepsRegs ((popped s).setReg r w) [.sp, r] := by
  intro q hq
  obtain ⟨hsp, hr⟩ := not_or.1 (mt List.mem_cons.2 hq)
  rw [State.reg_setReg_ne _ _ _ _ (List.ne_of_not_mem_cons hr), popped_reg hsp]

theorem exec_popReg_of_inRange {s : State} (h : s.wordInRange (s.reg .sp + 2) = true) (r : Reg) :
    exec (.popReg r) s = .next (((popped s).setReg r (s.wordAt (s.reg .sp + 2).toNat)).answer .continues) := by
  rw [exec_popReg, if_pos h]

/-! ### A pop after a push -/

/-- The pop after a push moves `sp` back to where it was (R162). -/
theorem popped_pushed_reg (v : Word) (s : State) (r : Reg) : (popped (pushed v s)).reg r = s.reg r := by
  by_cases h : r = .sp
  · rw [h, popped_sp, pushed_sp, BitVec.sub_add_cancel]
  · rw [popped_reg h, pushed_reg h]

/-- The pop after a push lowers `fsz` to what it was (spec/92_eei_decisions.md D11). -/
theorem popped_pushed_fsz (v : Word) (s : State) : (popped (pushed v s)).fsz = s.fsz := by
  rw [popped_fsz, pushed_fsz, BitVec.add_sub_cancel]

/-- POP after a push writes the word pushed into the register, at the old `sp` (spec/44_stack.md R162). -/
theorem exec_popReg_pushed {s : State} (h : s.wordInRange (s.reg .sp) = true) (v : Word) (r : Reg) (st : StepStatus) :
    exec (.popReg r) ((pushed v s).answer st) =
      .next (((popped ((pushed v s).answer st)).setReg r v).answer .continues) := by
  have hsp : ((pushed v s).answer st).reg .sp + 2 = s.reg .sp := by
    rw [State.answer_reg, ← popped_sp, popped_pushed_reg]
  have hr : ((pushed v s).answer st).wordInRange (((pushed v s).answer st).reg .sp + 2) = true := hsp.symm ▸ h
  rw [exec_popReg_of_inRange hr, hsp, State.answer_wordAt, pushed_wordAt_sp]

/-! ### The statements -/

/-- Settles O39: a push that passes its range check leaves the state `pushed`, and otherwise it is the write fault. -/
theorem pushEffect : Obligations.PushEffect := fun v s =>
  ⟨fun hr => ⟨_, push_ok hr, toNat_pushed_byteAt_high v s, toNat_pushed_byteAt_low v s, pushed_sp v s, pushed_fsz v s,
    pushed_keepsRegs v s, pushed_keepsMemoryOutside v s, pushed_cfg v s⟩, push_error⟩

/-- Settles O40: both forms are one push, of a word read before `sp` moves. -/
theorem pshPushes : Obligations.PshPushes := by
  intro s v i hi
  have hx : exec i s = exec (.pshLit v) s := by
    obtain rfl | ⟨r, rfl, rfl⟩ := hi
    · rfl
    · exact exec_pshReg_eq_pshLit r s
  rw [hx]
  refine ⟨fun hr => ⟨_, exec_pshLit_of_inRange hr v, pushed_wordAt_sp v s, ?_, pushed_fsz v s, fun r hr => ?_,
    pushed_keepsMemoryOutside v s, pushed_cfg v s, rfl⟩, fun hr => ?_⟩
  · rw [State.answer_reg, pushed_sp]
  · rw [State.answer_reg, pushed_keepsRegs v s r hr]
  · rw [exec_pshLit, if_neg (ne_true_of_eq_false hr)]

/-- Settles O41: POP is a range check, then the pop moves `sp`, and last the register is written. -/
theorem popPops : Obligations.PopPops := by
  intro s r
  refine ⟨fun hr => ⟨_, exec_popReg_of_inRange hr r, ?_, fun hsp => ?_, popped_fsz s, fun q hq => ?_, fun _ => rfl,
    popped_cfg s, rfl⟩, fun hr => ?_⟩
  · exact setReg_answer_reg_self (popped s) r _
  · rw [State.answer_reg, State.reg_setReg_ne _ _ _ _ hsp.symm, popped_sp]
  · rw [State.answer_reg, popped_setReg_keepsRegs r _ s q hq]
  · rw [exec_popReg, if_neg (ne_true_of_eq_false hr)]

/-- Settles O42: the pop reads where the push wrote, and moves `sp` and `fsz` back. -/
theorem popUndoesPush : Obligations.PopUndoesPush := by
  intro s v r hr
  refine ⟨_, _, exec_pshLit_of_inRange hr v, exec_popReg_pushed hr v r .continues, ?_, fun q hq => ?_,
    popped_pushed_fsz v s⟩
  · exact setReg_answer_reg_self _ r v
  · rw [State.answer_reg, State.reg_setReg_ne _ _ _ _ (List.ne_of_not_mem_cons hq)]
    exact popped_pushed_reg v s q

end Sys2Proof.Machine
end

section
/-! The statements about CALL and RET (spec/45_call_ret.md), and the lemmas for them: what a completed CALL leaves, where RET finds it again, what a
completed RET gives back, and that the relation `fsz = fp - sp` is kept. -/

namespace Sys2Proof.Machine

/-! ### A completed CALL -/

/-- The state after a CALL that does not fault (spec/45_call_ret.md R185). -/
def afterCall (target : Word) (s : State) : State := ((calledState s).setReg .ip target).answer .continues

/-- CALL of a register is CALL of the word it holds before the state is pushed (R186, R187). -/
theorem exec_callReg_eq_callLit (r : Reg) (s : State) : exec (.callReg r) s = exec (.callLit (s.reg r)) s := by
  rw [exec_callReg, exec_callLit]

theorem exists_exec_eq_callLit {i : Instr} (hi : (∃ a, i = .callLit a) ∨ ∃ r, i = .callReg r) (s : State) :
    ∃ target, exec i s = exec (.callLit target) s := by
  obtain ⟨a, rfl⟩ | ⟨r, rfl⟩ := hi
  · exact ⟨a, rfl⟩
  · exact ⟨s.reg r, exec_callReg_eq_callLit r s⟩

theorem exec_callLit_of_inRange {s : State} (h : ∀ k < 10, s.wordInRange (pushAddr (s.reg .sp) k) = true) (target : Word) :
    exec (.callLit target) s = .next (afterCall target s) := by
  rw [exec_callLit, State.pushFault_eq_none.2 h]
  rfl

/-- A CALL of either form that completes had its ten words in Memory. -/
theorem exec_call_next {i : Instr} {s t : State} (hi : (∃ a, i = .callLit a) ∨ ∃ r, i = .callReg r)
    (h : exec i s = .next t) :
    (∀ k < 10, s.wordInRange (pushAddr (s.reg .sp) k) = true) ∧ ∃ target, t = afterCall target s := by
  obtain ⟨target, hx⟩ := exists_exec_eq_callLit hi s
  obtain ⟨hp, ht⟩ := exec_callLit_next (hx ▸ h)
  exact ⟨State.pushFault_eq_none.1 hp, target, ht⟩

section AfterCall

variable (target : Word) (s : State)

theorem afterCall_ip : (afterCall target s).reg .ip = target := setReg_answer_reg_self (calledState s) .ip target

theorem afterCall_reg {r : Reg} (h : r ≠ .ip) : (afterCall target s).reg r = (calledState s).reg r := by
  rw [afterCall, State.answer_reg, State.reg_setReg_ne _ _ _ _ h]

theorem afterCall_fsz : (afterCall target s).fsz = 0 := rfl

theorem afterCall_mem : (afterCall target s).mem = (pushedAll (frameWords s) s).mem := by
  rw [afterCall, State.answer_mem, State.setReg_mem, calledState_mem]

theorem afterCall_sp : (afterCall target s).reg .sp = s.reg .sp - 20 := by
  rw [afterCall_reg target s (by decide), calledState_sp]

theorem afterCall_fp : (afterCall target s).reg .fp = s.reg .sp - 20 := by
  rw [afterCall_reg target s (by decide), calledState_fp]

/-- Of the registers CALL writes `ip`, `sp` and `fp` alone (spec/10_state.md R23). -/
theorem afterCall_keepsRegs : s.keepsRegs (afterCall target s) [.ip, .sp, .fp] := by
  intro r hr
  simp only [List.mem_cons, List.not_mem_nil, or_false, not_or] at hr
  obtain ⟨hip, hsp, hfp⟩ := hr
  rw [afterCall_reg target s hip, calledState_reg s hsp hfp]

/-- A new frame begins with `fsz` 0 and `sp` at `fp` (spec/45_call_ret.md R183). -/
theorem afterCall_frameLinked : (afterCall target s).frameLinked := by
  rw [State.frameLinked, afterCall_fsz, afterCall_fp, afterCall_sp, BitVec.sub_self]
  rfl

/-- Of Memory CALL writes its ten words alone (R180). -/
theorem afterCall_keepsMemoryOutside :
    s.keepsMemoryOutside (afterCall target s) ((List.range 10).map (pushAddr (s.reg .sp))) := by
  intro a ha
  rw [State.byteAt, afterCall_mem]
  exact pushedAll_byteAt (frameWords s) s a fun _ hk => ha _ (List.mem_map_of_mem (List.mem_range.2 hk))

/-- The word that push number `k` of CALL wrote. -/
theorem afterCall_wordAt {k : Nat} (hk : k < 10) :
    (afterCall target s).wordAt (pushAddr (s.reg .sp) k).toNat = (frameWords s)[k]'hk := by
  rw [afterCall, State.answer_wordAt, State.setReg_wordAt, calledState_wordAt s hk]

theorem afterCall_continuesTo : s.continuesTo (afterCall target s) := by
  rw [State.continuesTo, afterCall, State.answer_cfg, State.setReg_cfg, calledState_cfg, State.answer_lastStatus]
  exact ⟨rfl, rfl⟩

end AfterCall

/-! ### Where RET finds the frame -/

/-- Pop number `k` above the new `fp` reads where push number `9 - k` wrote, modulo 65536 (R181, R182). -/
theorem popAddr_sub_twenty (a : Word) {k : Nat} (hk : k < 10) : popAddr (a - 20) k = pushAddr a (9 - k) := by
  apply BitVec.eq_of_toNat_eq
  simp only [BitVec.toNat_add, BitVec.toNat_sub, BitVec.toNat_ofNat, BitVec.reduceToNat]
  omega

/-- From the eleventh on, the pops read what lay above the frame when CALL began. -/
theorem popAddr_sub_twenty_of_ge (a : Word) {k : Nat} (hk : 10 ≤ k) : popAddr (a - 20) k = popAddr a (k - 10) := by
  apply BitVec.eq_of_toNat_eq
  simp only [BitVec.toNat_add, BitVec.toNat_sub, BitVec.toNat_ofNat, BitVec.reduceToNat]
  omega

/-- The words above the `fp` that CALL sets are those it pushed, the last first. -/
theorem afterCall_wordAt_popAddr (target : Word) (s : State) {k : Nat} (hk : k < 10) :
    (afterCall target s).wordAt (popAddr ((afterCall target s).reg .fp) k).toNat =
      (frameWords s)[9 - k]'(by rw [frameWords_length]; omega) := by
  rw [afterCall_fp, popAddr_sub_twenty _ hk]
  exact afterCall_wordAt target s (by omega)

/-- RET pops the return address and `r8` to `r1` in the reverse of the order in which CALL pushed them. -/
theorem frameWords_getElem_returnRegs (s : State) {k : Nat} (hk : k < 9) :
    (frameWords s)[8 - k]'(by rw [frameWords_length]; omega) = s.reg (returnRegs[k]'hk) := by
  interval_cases k <;> rfl

/-! ### A completed RET -/

/-- Twice a word, as the distance of as many pops. -/
theorem ofNat_two_mul_toNat (n : Word) : BitVec.ofNat 16 (2 * n.toNat) = 2 * n := by
  rw [BitVec.ofNat_mul, BitVec.ofNat_toNat, BitVec.setWidth_eq]
  rfl

/-- The state after a RET that does not fault (R190). -/
def afterRet (s : State) : State := (returnedState s).answer .continues

theorem exec_ret_of_inRange {s : State}
    (h : ∀ k < 11 + (argCount s).toNat, s.wordInRange (popAddr (s.reg .fp) k) = true) : exec .ret s = .next (afterRet s) := by
  rw [exec_ret, State.popFault_eq_none.2 h]
  rfl

section AfterRet

variable (s : State)

theorem afterRet_sp : (afterRet s).reg .sp = s.reg .fp + 22 + 2 * argCount s := by
  rw [afterRet, State.answer_reg, returnedState_sp, ofNat_two_mul_toNat]

theorem afterRet_fp : (afterRet s).reg .fp = s.reg .fp + s.wordAt (s.reg .fp + 2).toNat := by
  rw [afterRet, State.answer_reg, returnedState_fp]

theorem afterRet_acc : (afterRet s).reg .acc = s.reg .acc := by
  rw [afterRet, State.answer_reg, returnedState_acc]

/-- The register popped `k`-th after the frame size holds the word that pop number `k + 1` read (R181). -/
theorem afterRet_popped {k : Nat} (hk : k < returnRegs.length) :
    (afterRet s).reg returnRegs[k] = s.wordAt (popAddr (s.reg .fp) (k + 1)).toNat := by
  rw [afterRet, State.answer_reg]
  exact returnedState_popped s hk

theorem afterRet_fsz : (afterRet s).fsz = 0 := rfl

/-- RET only reads Memory (R181). -/
theorem afterRet_keepsMemory : s.keepsMemory (afterRet s) := fun a => by
  rw [State.byteAt, afterRet, State.answer_mem, returnedState_mem, State.byteAt]

theorem afterRet_continuesTo : s.continuesTo (afterRet s) := by
  rw [State.continuesTo, afterRet, State.answer_cfg, returnedState_cfg, State.answer_lastStatus]
  exact ⟨rfl, rfl⟩

end AfterRet

/-! ### The matching return -/

section MatchingReturn

variable {s u : State}

/-- The frame that CALL made in `s` is intact in `u`: `fp` is where CALL set it, and the ten words are those CALL pushed. -/
def frameIntact (s u : State) : Prop :=
  u.reg .fp = s.reg .sp - 20 ∧ ∀ (k : Nat) (hk : k < 10), u.wordAt (pushAddr (s.reg .sp) k).toNat = (frameWords s)[k]'hk

theorem frameIntact_of_afterCall {target : Word} (hfp : u.reg .fp = (afterCall target s).reg .fp)
    (hw : ∀ k < 10, u.wordAt (pushAddr (s.reg .sp) k).toNat =
      (afterCall target s).wordAt (pushAddr (s.reg .sp) k).toNat) : frameIntact s u :=
  ⟨hfp.trans (afterCall_fp target s), fun k hk => (hw k hk).trans (afterCall_wordAt target s hk)⟩

theorem frameIntact_argCount (h : frameIntact s u) : argCount u = u.wordAt (s.reg .sp + 2).toNat := by
  obtain ⟨hfp, -⟩ := h
  rw [argCount, hfp, show s.reg .sp - 20 + 22 = s.reg .sp + 2 by bv_omega]

/-- The pops of the matching RET are those of the ten words of CALL, and then those of the caller's count and arguments. -/
theorem frameIntact_inRange (h : frameIntact s u) (hp : ∀ k < 10, u.wordInRange (pushAddr (s.reg .sp) k) = true) {n : Nat}
    (hn : ∀ k < 1 + n, u.wordInRange (popAddr (s.reg .sp) k) = true) :
    ∀ k < 11 + n, u.wordInRange (popAddr (u.reg .fp) k) = true := by
  intro k hk
  obtain ⟨hfp, -⟩ := h
  rw [hfp]
  by_cases hk10 : k < 10
  · rw [popAddr_sub_twenty _ hk10]
    exact hp _ (by omega)
  · rw [popAddr_sub_twenty_of_ge _ (by omega)]
    exact hn _ (by omega)

/-- RET gives back the registers that CALL saved, and the return address in `ip` (R191). -/
theorem afterRet_popped_of_frameIntact (h : frameIntact s u) {r : Reg} (hr : r ∈ returnRegs) :
    (afterRet u).reg r = s.reg r := by
  obtain ⟨k, hk, rfl⟩ := List.mem_iff_getElem.1 hr
  obtain ⟨hfp, hw⟩ := h
  have hk9 : k < 9 := hk
  rw [afterRet_popped u hk, hfp, popAddr_sub_twenty _ (by omega), show 9 - (k + 1) = 8 - k by omega, hw _ (by omega)]
  exact frameWords_getElem_returnRegs s hk9

theorem afterRet_sp_of_frameIntact (h : frameIntact s u) : (afterRet u).reg .sp = s.reg .sp + 2 + 2 * argCount u := by
  obtain ⟨hfp, -⟩ := h
  rw [afterRet_sp, hfp]
  bv_omega

/-- RET gives back the caller's `fp` when `fsz = fp - sp` held at the CALL (R183). -/
theorem afterRet_fp_of_frameIntact (h : frameIntact s u) (hl : s.frameLinked) : (afterRet u).reg .fp = s.reg .fp := by
  obtain ⟨hfp, hw⟩ := h
  have hsize : u.wordAt (s.reg .sp - 20 + 2).toNat = s.fsz + 20 := by
    rw [show s.reg .sp - 20 + 2 = pushAddr (s.reg .sp) 9 from popAddr_sub_twenty (s.reg .sp) (k := 0) (by decide)]
    exact hw 9 (by decide)
  rw [afterRet_fp, hfp, hsize, hl]
  bv_omega

end MatchingReturn

/-! ### The relation `fsz = fp - sp` -/

section FrameLinked

variable {s t : State}

theorem frameLinked_of_kept (hl : s.frameLinked) (hsp : t.reg .sp = s.reg .sp) (hfp : t.reg .fp = s.reg .fp)
    (hfsz : t.fsz = s.fsz) : t.frameLinked := by
  rwa [State.frameLinked, hsp, hfp, hfsz]

theorem pushed_frameLinked (hl : s.frameLinked) (v : Word) : (pushed v s).frameLinked := by
  rw [State.frameLinked, pushed_fsz, pushed_sp, pushed_reg (by decide), hl]
  bv_omega

theorem popped_frameLinked (hl : s.frameLinked) : (popped s).frameLinked := by
  rw [State.frameLinked, popped_fsz, popped_sp, popped_reg (by decide), hl]
  bv_omega

/-- A completed register write keeps the relation, unless it is of `sp` or `fp`. -/
theorem setReg_answer_frameLinked (hl : s.frameLinked) {d : Reg} (hsp : d ≠ .sp) (hfp : d ≠ .fp) (v : Word) :
    ((s.setReg d v).answer .continues).frameLinked :=
  frameLinked_of_kept hl ((State.answer_reg ..).trans (State.reg_setReg_ne _ _ _ _ hsp.symm))
    ((State.answer_reg ..).trans (State.reg_setReg_ne _ _ _ _ hfp.symm)) rfl

end FrameLinked

/-! ### The statements -/

/-- Settles O43: both forms are one CALL, of a target read beforehand, and its ten pushes pass their range checks. -/
theorem callSavesAndJumps : Obligations.CallSavesAndJumps := by
  intro s target i hi hr
  have hx : exec i s = exec (.callLit target) s := by
    obtain rfl | ⟨r, rfl, rfl⟩ := hi
    · rfl
    · exact exec_callReg_eq_callLit r s
  exact ⟨_, hx.trans (exec_callLit_of_inRange hr target), afterCall_ip target s, afterCall_sp target s, afterCall_fp target s,
    afterCall_fsz target s, afterCall_keepsRegs target s, fun _ hk => afterCall_wordAt target s hk, afterCall_keepsMemoryOutside target s,
    afterCall_continuesTo target s⟩

/-- Settles O44: the words above the new `fp` are those CALL pushed, the last first. -/
theorem frameLayout : Obligations.FrameLayout := by
  intro s t i hi h
  obtain ⟨-, target, rfl⟩ := exec_call_next hi h
  have hw := fun k (hk : k < 10) => afterCall_wordAt_popAddr target s hk
  exact ⟨hw 0 (by decide), hw 1 (by decide), hw 2 (by decide), hw 3 (by decide), hw 4 (by decide), hw 5 (by decide),
    hw 6 (by decide), hw 7 (by decide), hw 8 (by decide), hw 9 (by decide)⟩

/-- Settles O45: no pop leaves Memory, and each register popped holds the word its pop read. -/
theorem retRestores : Obligations.RetRestores := by
  rintro s n rfl hr
  have hw := fun k (hk : k < 9) => afterRet_popped s hk
  exact ⟨_, exec_ret_of_inRange hr, hw 0 (by decide), hw 1 (by decide), hw 2 (by decide), hw 3 (by decide), hw 4 (by decide),
    hw 5 (by decide), hw 6 (by decide), hw 7 (by decide), hw 8 (by decide), afterRet_sp s, afterRet_fp s, afterRet_acc s,
    afterRet_fsz s, afterRet_keepsMemory s, afterRet_continuesTo s⟩

/-- Settles O46: the fault of a run of ten pushes is that of its first push outside Memory. -/
theorem callFaultsOnTheFirstBadPush : Obligations.CallFaultsOnTheFirstBadPush := by
  intro s i k hi hk hr hf
  obtain ⟨target, hx⟩ := exists_exec_eq_callLit hi s
  rw [hx, exec_callLit, State.pushFault_eq_some hk hr hf]

/-- Settles O47: the fault of a run of `11 + n` pops is that of its first pop outside Memory. -/
theorem retFaultsOnTheFirstBadPop : Obligations.RetFaultsOnTheFirstBadPop := by
  rintro s n k rfl hk hr hf
  rw [exec_ret, argCount, State.popFault_eq_some hk hr hf]

/-- Settles O48: `fp`, `acc`, Memory and the parameters are all that RET reads, and they are not varied. -/
theorem retReadsNeitherSpFszIpNorR1ToR8 : Obligations.RetReadsNeitherSpFszIpNorR1ToR8 := by
  intro s r v w hfp hacc
  have hkept : ∀ q, q ≠ r → ((s.setReg r v).setFsz w).reg q = s.reg q := fun q hq => by
    rw [State.setFsz_reg, State.reg_setReg_ne _ _ _ _ hq]
  exact exec_ret_congr (hkept .fp hfp.symm) (hkept .acc hacc.symm) rfl rfl

/-- Settles O52: a push and a pop move `sp` and `fsz` by the same amount in opposite directions, CALL begins anew, and the other instructions write
neither `sp`, `fp` nor `fsz`. -/
theorem frameLinkIsKept : Obligations.FrameLinkIsKept := by
  intro i s t h
  have hcall : ((∃ a, i = .callLit a) ∨ ∃ r, i = .callReg r) → t.frameLinked := by
    intro hi
    obtain ⟨-, target, rfl⟩ := exec_call_next hi h
    exact afterCall_frameLinked target s
  refine ⟨hcall, fun hl hret hd => ?_⟩
  obtain ⟨hspLit, hspReg, hspMem, hspPop⟩ := hd .sp (.inl rfl)
  obtain ⟨hfpLit, hfpReg, hfpMem, hfpPop⟩ := hd .fp (.inr rfl)
  have ht := exec_next h
  cases i with
  | callLit a => exact hcall (.inl ⟨a, rfl⟩)
  | callReg r => exact hcall (.inr ⟨r, rfl⟩)
  | ret => exact absurd rfl hret
  | pshLit v => exact ht ▸ pushed_frameLinked hl v
  | pshReg r => exact ht ▸ pushed_frameLinked hl (s.reg r)
  | popReg r =>
    exact ht ▸ setReg_answer_frameLinked (popped_frameLinked hl) (mt (congrArg Instr.popReg) hspPop)
      (mt (congrArg Instr.popReg) hfpPop) _
  | movLitReg v d =>
    exact ht ▸ setReg_answer_frameLinked hl (mt (congrArg (Instr.movLitReg v)) (hspLit v))
      (mt (congrArg (Instr.movLitReg v)) (hfpLit v)) v
  | movRegReg r d =>
    exact ht ▸ setReg_answer_frameLinked hl (mt (congrArg (Instr.movRegReg r)) (hspReg r))
      (mt (congrArg (Instr.movRegReg r)) (hfpReg r)) _
  | movMemReg m d =>
    exact ht ▸ setReg_answer_frameLinked hl (mt (congrArg (Instr.movMemReg m)) (hspMem m))
      (mt (congrArg (Instr.movMemReg m)) (hfpMem m)) _
  | addRegReg a b => exact ht ▸ setReg_answer_frameLinked hl (by decide) (by decide) _
  | jneLitMem v a =>
    rw [ht]
    split
    · exact hl
    · exact setReg_answer_frameLinked hl (by decide) (by decide) a
  | movLitMem v a | movRegMem r a =>
    rw [ht]
    exact frameLinked_of_kept (s := s) hl (by simp) (by simp) rfl

/-- Settles O53: RET pops what CALL pushed, and then the caller's count and arguments. -/
theorem matchingReturnRestoresTheCaller : Obligations.MatchingReturnRestoresTheCaller := by
  intro s t u i n hi h hcfg hfp hw hn hr
  obtain ⟨hp, target, rfl⟩ := exec_call_next hi h
  have hframe := frameIntact_of_afterCall hfp hw
  obtain rfl : n = argCount u := hn.trans (frameIntact_argCount hframe).symm
  have hp' : ∀ k < 10, u.wordInRange (pushAddr (s.reg .sp) k) = true := fun k hk => by
    rw [State.wordInRange, hcfg]
    exact hp k hk
  have hregs := fun r (hr : r ∈ returnRegs) => afterRet_popped_of_frameIntact hframe hr
  have hsp := afterRet_sp_of_frameIntact hframe
  have hfpBack := afterRet_fp_of_frameIntact hframe
  refine ⟨_, exec_ret_of_inRange (frameIntact_inRange hframe hp' hr), hregs .ip (by decide),
    fun r hr => hregs r (List.mem_cons_of_mem _ (List.mem_reverse.2 hr)), afterRet_acc u, hsp, afterRet_fsz u,
    afterRet_keepsMemory u, afterRet_continuesTo u, hfpBack, fun hl hfsz => ?_⟩
  have hend : (afterRet u).reg .sp = s.reg .fp := by
    rw [hsp, BitVec.add_assoc, ← hfsz, hl]
    bv_omega
  refine ⟨hend, ?_⟩
  rw [State.frameLinked, afterRet_fsz, hend, hfpBack hl, BitVec.sub_self]
  rfl

end Sys2Proof.Machine
end

section
/-! The statements about the outcomes of a step (spec/60_exceptions.md): which fault each instruction can raise, and what the register dump shows
of a state. -/

namespace Sys2Proof.Machine

/-! ### The fault, whatever the instruction -/

/-- A range-checked outcome that is a fault is the fault of its check. -/
theorem fault_of_checked {c : Bool} {u : State} {f g : Fault}
    (h : (if c then (.next u : Host.Outcome State Fault Refusal) else .fault g) = .fault f) : f = g := by
  cases c with
  | true => cases h
  | false => cases h; rfl

/-- The fault of an instruction that raises one: beside `exec_next`, the other half of the inversion of `exec` (R212). -/
theorem exec_fault {i : Instr} {s : State} {f : Fault} (h : exec i s = .fault f) :
    match i with
    | .movLitReg _ _ | .movRegReg _ _ | .addRegReg _ _ | .jneLitMem _ _ => False
    | .movLitMem _ a | .movRegMem _ a => f = .memOutOfRange .write a 2
    | .movMemReg a _ => f = .memOutOfRange .read a 2
    | .pshLit _ | .pshReg _ => f = .memOutOfRange .write (s.reg .sp) 2
    | .popReg _ => f = .memOutOfRange .read (s.reg .sp + 2) 2
    | .callLit _ | .callReg _ => s.pushFault (s.reg .sp) 10 = some f
    | .ret => s.popFault (s.reg .fp) (11 + (argCount s).toNat) = some f := by
  cases i with
  | movLitReg v d | movRegReg r d | addRegReg a b | jneLitMem v a => cases h
  | movLitMem v a => exact fault_of_checked (exec_movLitMem v a s ▸ h)
  | movRegMem r a => exact fault_of_checked (exec_movRegMem r a s ▸ h)
  | movMemReg a d => exact fault_of_checked (exec_movMemReg a d s ▸ h)
  | pshLit v => exact fault_of_checked (exec_pshLit v s ▸ h)
  | pshReg r => exact fault_of_checked (exec_pshReg r s ▸ h)
  | popReg r => exact fault_of_checked (exec_popReg r s ▸ h)
  | callLit a => rw [exec_callLit] at h; split at h <;> cases h; assumption
  | callReg r => rw [exec_callReg] at h; split at h <;> cases h; assumption
  | ret => rw [exec_ret] at h; split at h <;> cases h; assumption

/-! ### The statements -/

/-- Settles O32: a load and a run of pops fault on a word read, a store and a run of pushes on a word write, and the other four make no access. -/
theorem faultKindsByInstruction : Obligations.FaultKindsByInstruction := by
  intro i s f h
  have hf := exec_fault h
  cases i with
  | movLitReg v d | movRegReg r d | addRegReg a b | jneLitMem v a => exact hf.elim
  | movMemReg m d => exact .inl ⟨_, hf, .inl ⟨m, d, rfl⟩⟩
  | popReg r => exact .inl ⟨_, hf, .inr (.inl ⟨r, rfl⟩)⟩
  | ret =>
    obtain ⟨a, ha, -⟩ := State.popFault_out hf
    exact .inl ⟨a, ha, .inr (.inr rfl)⟩
  | movLitMem v m => exact .inr ⟨_, hf, .inl ⟨v, m, rfl⟩⟩
  | movRegMem r m => exact .inr ⟨_, hf, .inr (.inl ⟨r, m, rfl⟩)⟩
  | pshLit v => exact .inr ⟨_, hf, .inr (.inr (.inl ⟨v, rfl⟩))⟩
  | pshReg r => exact .inr ⟨_, hf, .inr (.inr (.inr (.inl ⟨r, rfl⟩)))⟩
  | callLit m =>
    obtain ⟨a, ha, -⟩ := State.pushFault_out hf
    exact .inr ⟨a, ha, .inr (.inr (.inr (.inr (.inl ⟨m, rfl⟩))))⟩
  | callReg r =>
    obtain ⟨a, ha, -⟩ := State.pushFault_out hf
    exact .inr ⟨a, ha, .inr (.inr (.inr (.inr (.inr ⟨r, rfl⟩))))⟩

/-- Settles O7: the dump lists the registers in the order of their positions, and a write of `fsz` changes none of them. -/
theorem registerDumpShowsTheTwelve : Obligations.RegisterDumpShowsTheTwelve := by
  intro s
  refine ⟨rfl, fun r => ?_, fun v => ?_⟩
  · cases r <;> rfl
  · exact List.map_congr_left fun r _ => by rw [State.setFsz_reg]

end Sys2Proof.Machine
end
